-- ==== Sys2Proof/Word.lean ====
section
/-! DEFINITION. The bus and pattern types of 10_state.md R22 and R27. -/

namespace Sys2Proof

/-- The operation select `OP[3:0]` (R22, R48). -/
abbrev OpCode := BitVec 4

/-- A value on the operand bus `A[63:0]` or the result bus `Y[63:0]` (R22). -/
abbrev Word := BitVec 64

/-- A one-bit level, such as `ILL` (R22). -/
abbrev Level := BitVec 1

/-- A half-precision pattern (R27). -/
abbrev Bits16 := BitVec 16

/-- A single-precision pattern (R27). -/
abbrev Bits32 := BitVec 32

/-- A double-precision pattern (R27). -/
abbrev Bits64 := BitVec 64

end Sys2Proof
end

