-- ==== Sys2Proof/Syntax.lean ====
section
/-! DEFINITION. The ten operations of the block (30_encoding.md R57). None has an operand field (R52): the operand
travels beside the operation on port `A` (R48). -/

namespace Sys2Proof

/-- One constructor per row of spec/opcode_table.json. -/
inductive Instr where
  | pack32
  | pack64
  | unpack32
  | unpack64
  | getexp32
  | getexp64
  | getsign32
  | getsign64
  | getsig32
  | getsig64
  deriving DecidableEq, Repr

end Sys2Proof
end

