-- ==== Sys2Proof/Decode.lean ====
section
/-! DEFINITION. Decoding and encoding of the operation select (30_encoding.md R49 to R60). The decoder is the map of
R57 read by match and mask; the encoder is built from the fields `fn` and `w` of R49 to R51. -/

namespace Sys2Proof

/-- Why an operation select decodes to nothing. -/
inductive DecodeError where
  /-- `OP` is one of 0xA to 0xF (R58). -/
  | reservedOperationSelect
  deriving DecidableEq, Repr

/-- A row of the operation map: a value `v` selects the row when `v & mask == pattern` (R57). -/
structure OpcodeRow where
  pattern : OpCode
  mask : OpCode
  instr : Instr
  deriving DecidableEq, Repr

/-- `v & mask == match` (R57). -/
def rowSelects (v : OpCode) (r : OpcodeRow) : Bool := v &&& r.mask == r.pattern

/-- The operation map of R57, row by row. -/
def opcodeMap : List OpcodeRow :=
  [ { pattern := 0x0, mask := 0xF, instr := .pack32 },
    { pattern := 0x1, mask := 0xF, instr := .pack64 },
    { pattern := 0x2, mask := 0xF, instr := .unpack32 },
    { pattern := 0x3, mask := 0xF, instr := .unpack64 },
    { pattern := 0x4, mask := 0xF, instr := .getexp32 },
    { pattern := 0x5, mask := 0xF, instr := .getexp64 },
    { pattern := 0x6, mask := 0xF, instr := .getsign32 },
    { pattern := 0x7, mask := 0xF, instr := .getsign64 },
    { pattern := 0x8, mask := 0xF, instr := .getsig32 },
    { pattern := 0x9, mask := 0xF, instr := .getsig64 } ]

/-- Decoding is total and reads `OP` only (R55); a reserved code is rejected by name (R58). -/
def decode (op : OpCode) : Except DecodeError Instr :=
  match opcodeMap.find? (rowSelects op) with
  | some r => .ok r.instr
  | none => .error .reservedOperationSelect

/-- Field `fn`, the function, in the numbering of R50. -/
def fnCode : Instr → BitVec 3
  | .pack32 => 0
  | .pack64 => 0
  | .unpack32 => 1
  | .unpack64 => 1
  | .getexp32 => 2
  | .getexp64 => 2
  | .getsign32 => 3
  | .getsign64 => 3
  | .getsig32 => 4
  | .getsig64 => 4

/-- Field `w`: 0 for the 32-bit format, 1 for the 64-bit format (R51). -/
def wideBit : Instr → BitVec 1
  | .pack32 => 0
  | .pack64 => 1
  | .unpack32 => 0
  | .unpack64 => 1
  | .getexp32 => 0
  | .getexp64 => 1
  | .getsign32 => 0
  | .getsign64 => 1
  | .getsig32 => 0
  | .getsig64 => 1

/-- Format `OP4`: `OP[3:1] = fn`, `OP[0] = w` (R49). -/
def encode (i : Instr) : OpCode := fnCode i ++ wideBit i

/-- The operation select carried by a word of `nbits` bits as spec/opcode_table.json numbers them: its low four bits,
the bits above `nbits` being 0. `OP` has four bits (R48) and R57's mask is over them, so higher bits select nothing
(DEDUCED, log 11). -/
def opOfTableWord (nbits w : Nat) : OpCode := BitVec.ofNat 4 (w % 2 ^ nbits)

/-- The instruction the decoder reads from a table word. -/
def decodeTableWord (nbits w : Nat) : Option Instr :=
  match decode (opOfTableWord nbits w) with
  | .ok i => some i
  | .error _ => none

end Sys2Proof
end

