-- ==== Sys2Proof/Config.lean ====
section
/-! DEFINITION. The constants built into the circuit (00_scope.md R7, 10_state.md R26, R29, R30) and the two OPEN
parameters, which no rule reads. -/

namespace Sys2Proof

/-- A layout `sign(1) | exponent(E) | significand(M)` (R30): `expBits` is `E`, `sigBits` is `M`. -/
structure Format where
  expBits : Nat
  sigBits : Nat
  deriving DecidableEq, Repr

/-- `B = 2^(E-1) - 1` (R29). -/
def Format.bias (F : Format) : Nat := 2 ^ (F.expBits - 1) - 1

/-- `W = 1 + E + M` (R30). -/
def Format.width (F : Format) : Nat := 1 + F.expBits + F.sigBits

/-- The all-ones exponent field `2^E - 1` (R28, `EXP_FIELD_MAX`). -/
def Format.expFieldMax (F : Format) : Nat := 2 ^ F.expBits - 1

namespace Config

/-- The 16-bit layout: E16 = 5, M16 = 10 (R7, R30). -/
def half : Format := { expBits := 5, sigBits := 10 }

/-- The 32-bit layout: E32 = 8, M32 = 23 (R7, R30). -/
def single : Format := { expBits := 8, sigBits := 23 }

/-- The 64-bit layout: E64 = 11, M64 = 52 (R7, R30). -/
def double : Format := { expBits := 11, sigBits := 52 }

/-- `EMAX16`, the maximum finite unbiased exponent of the 16-bit format (R7). -/
def emax16 : Int := 15

/-- `EMIN16`, the minimum normal unbiased exponent of the 16-bit format (R7). -/
def emin16 : Int := -14

/-- `ESUB16`, the lowest unbiased exponent still converted to a subnormal (R7). -/
def esub16 : Int := -24

/-- Kept precision of the rounding unit, in bits (R7). -/
def keptBits : Nat := 10

/-- `NAN16_SIG`, the significand field of the NaN the packer emits: the default of the parameter of U1
(R7, R94; the spec's own decision D9, UNVERIFIED beyond the spec, log 9). -/
def nan16Sig : Nat := 0x200

/-- `T_PD`, the propagation delay (R7): OPEN, read by no rule and by no definition of the model (log 12). -/
opaque propagationDelay : Nat

/-- `N_INST`, the number of instances of a system (R7, R44): OPEN, read by no rule and by no definition of the
model (log 12). -/
opaque instanceCount : Nat

end Config

end Sys2Proof
end

