-- ==== Sys2Proof/Machine/State.lean ====
section
/-! DEFINITION. What a step reads and writes. The block itself holds nothing from one operation to the next
(10_state.md R13): State is the level on its four ports (R22) and, on the host's side, the run of
70_reset_and_hazards.md R153. -/

namespace Sys2Proof.Machine

/-- What the host reads after one operation: the pair (`Y`, `ILL`) (R22, R153). -/
structure Outputs where
  y : Word
  ill : Level
  deriving DecidableEq, Repr

/-- Where the operand of a line of a run comes from (30_encoding.md R61). -/
inductive Source where
  /-- A value the host puts on `A`. -/
  | value (a : Word)
  /-- `%n`: the used low bits of the `Y` of line `n` of the run, lines counted from 1. -/
  | result (n : Nat)
  deriving DecidableEq, Repr

/-- One line of a run: an operation select and its operand (R153). -/
structure Line where
  op : OpCode
  operand : Source
  deriving DecidableEq, Repr

/-- The ports and the run (log 1, log 2). -/
structure State where
  /-- Level on port `OP` (R22). -/
  op : OpCode
  /-- Level on port `A` (R22). -/
  a : Word
  /-- Level on port `Y` (R22, R23). -/
  y : Word
  /-- Level on port `ILL` (R22, R130). -/
  ill : Level
  /-- The lines the host has still to present, next first (R153). The host's, not the block's. -/
  pending : List Line
  /-- The outcomes read so far, that of line 1 first (R153). The host's, not the block's. -/
  outcomes : List Outputs
  deriving DecidableEq, Repr

/-- Why the machine stops with a fault. -/
inductive Fault where
  /-- Raised by the step when the presented `OP` is a reserved code 0xA to 0xF (R58, R130: "fault: reserved operation
  select"). Safe: the hardware drives `ILL = 1`, `Y = 0` and goes on, the model stops. -/
  | reservedOperationSelect
  deriving DecidableEq, Repr

/-- Why the machine gives no meaning. -/
inductive Refusal where
  /-- Raised by an arm of exec whose instruction has no meaning yet; no arm raises it. Safe. -/
  | notModelled (mnemonic : String)
  /-- Raised by the step when a line's operand `%n` names no earlier line of the run, or one that gave `ILL = 1`
  (R61, U3, U6, log 8). Safe: the spec gives such a line no operand. -/
  | operandNotProduced
  deriving DecidableEq, Repr

/-- The outcome of an operation. -/
abbrev Outcome := Host.Outcome State Fault Refusal

/-- The machine before the host has presented anything. The block has no reset (R33, R145): every value is a
DESIGN CHOICE (log 3). -/
def State.reset : State :=
  { op := 0, a := 0, y := 0, ill := 0, pending := [], outcomes := [] }

end Sys2Proof.Machine
end

