-- ==== Sys2Proof/Machine/Ops.lean ====
section
/-! DEFINITION. Bit-field helpers (00_scope.md R8 to R10, 10_state.md R28) and the operations on the ports and on the
run. There is no memory (20_memory.md R35) and no exception entry or return (60_exceptions.md R134, R135). -/

namespace Sys2Proof.Machine

/-- `SIGN_SHIFT = E + M` (R28). -/
def signShift (F : Format) : Nat := F.expBits + F.sigBits

/-- `SIGN_MASK = 2^(E+M)` (R28). -/
def signMask (F : Format) : Nat := 2 ^ signShift F

/-- `SIG_MASK = 2^M - 1` (R28). -/
def sigMask (F : Format) : Nat := 2 ^ F.sigBits - 1

/-- `IMPLICIT_BIT = 2^M` (R28). -/
def implicitBit (F : Format) : Nat := 2 ^ F.sigBits

/-- `EXP_MASK` in place (R28). -/
def expMask (F : Format) : Nat := F.expFieldMax <<< F.sigBits

/-- `sign | exponent field | significand field`, assembled (R71, R98, R112). -/
def assemble (F : Format) (s ef f : Nat) : Nat := (s <<< signShift F) ||| (ef <<< F.sigBits) ||| f

/-- `clamp(v, lo, hi)` (R10). -/
def clamp (v lo hi : Int) : Int := if v < lo then lo else if v > hi then hi else v

/-- `zext_64(v)` (R10). -/
def zext64 (v : Nat) : Word := BitVec.ofNat 64 v

/-- `sext_64(v)`: the 64-bit two's-complement pattern of `v` (R10). -/
def sext64 (v : Int) : Word := BitVec.ofInt 64 v

/-- `Y <- v`, `ILL <- 0`, the host reading the pair (R10, R22, R153). The inputs stay as they are. -/
def deliver (v : Word) (s : State) : State :=
  { s with y := v, ill := 0, outcomes := s.outcomes ++ [{ y := v, ill := 0 }] }

/-- The line the next step evaluates: the next one of the run, or, with nothing pending, the pair the host holds on
the ports (R143, R148; log 4). -/
def nextLine (s : State) : Line :=
  match s.pending with
  | [] => { op := s.op, operand := .value s.a }
  | l :: _ => l

/-- The host puts (`OP`, `A`) on the ports and the line leaves the run (R143, R153). -/
def present (op : OpCode) (a : Word) (s : State) : State :=
  { s with op := op, a := a, pending := s.pending.tail }

end Sys2Proof.Machine
end

