-- ==== Sys2Proof/Machine/Operands.lean ====
section
/-! DEFINITION. Fields of `OP` (30_encoding.md R49), operand lanes (R53) and the operand of a line of a run (R61). -/

namespace Sys2Proof.Machine

/-- `OP[3:1]` (R49). -/
def fnField (op : OpCode) : Nat := op.toNat >>> 1

/-- `OP[0]` (R49). -/
def wField (op : OpCode) : Nat := op.toNat &&& 1

/-- The wide format `w` selects (R51). -/
def wideFormat (op : OpCode) : Format := if wField op = 0 then Config.single else Config.double

/-- `A[15:0]`, the operand of the unpacks (R53). -/
def operand16 (a : Word) : Bits16 := a.setWidth 16

/-- `A[31:0]`, the operand of the 32-bit operations (R53). -/
def operand32 (a : Word) : Bits32 := a.setWidth 32

/-- `A[63:0]`, the operand of the 64-bit operations (R53). -/
def operand64 (a : Word) : Bits64 := a

/-- How many low bits of `A` the operation uses (R53): 16 for UNPACK, else the width of the wide format. -/
def laneBits (op : OpCode) : Nat := if fnField op = 1 then 16 else (wideFormat op).width

/-- The used low bits of a value, zeros above (R53, R61). -/
def usedLow (op : OpCode) (v : Word) : Word := v &&& BitVec.ofNat 64 (2 ^ laneBits op - 1)

/-- The operand of a line, given the outcomes so far: the value, or for `%n` the used low bits of the `Y` of line `n`
(R61). There is none where line `n` has not run, or gave `ILL = 1`, whose `Y` must not flow on as a value (U3). -/
def resolve (done : List Outputs) (l : Line) : Option Word :=
  match l.operand with
  | .value a => some a
  | .result 0 => none
  | .result (n + 1) =>
    match done[n]? with
    | some o => if o.ill = 0 then some (usedLow l.op o.y) else none
    | none => none

end Sys2Proof.Machine
end

