-- ==== Sys2Proof/Machine/Extractor.lean ====
section
/-! DEFINITION. ieee754_field_extractor: the field functions of 40_field_extractor.md R63 on unsigned patterns, and the
six operations R65 to R70. The functions are total, with no special class (R64). -/

namespace Sys2Proof.Machine

/-- `SIGN_W(a) = (a & SIGN_MASK) >> SIGN_SHIFT` (R63). -/
def signField (F : Format) (a : Nat) : Nat := (a &&& signMask F) >>> signShift F

/-- `EXPF_W(a) = (a >> M) & (2^E - 1)` (R63). -/
def expField (F : Format) (a : Nat) : Nat := (a >>> F.sigBits) &&& F.expFieldMax

/-- `EXP_W(a) = EXPF_W(a) - B`, signed (R63). -/
def unbiasedExp (F : Format) (a : Nat) : Int := (expField F a : Int) - F.bias

/-- `SIG_W(a) = a & (2^M - 1)`, no implicit bit (R63). -/
def sigField (F : Format) (a : Nat) : Nat := a &&& sigMask F

/-- GETEXP32 (R65). -/
def execGetexp32 (s : State) : Outcome :=
  .next (deliver (sext64 (unbiasedExp Config.single (operand32 s.a).toNat)) s)

/-- GETEXP64 (R66). -/
def execGetexp64 (s : State) : Outcome :=
  .next (deliver (sext64 (unbiasedExp Config.double (operand64 s.a).toNat)) s)

/-- GETSIGN32 (R67). -/
def execGetsign32 (s : State) : Outcome :=
  .next (deliver (zext64 (signField Config.single (operand32 s.a).toNat)) s)

/-- GETSIGN64 (R68). -/
def execGetsign64 (s : State) : Outcome :=
  .next (deliver (zext64 (signField Config.double (operand64 s.a).toNat)) s)

/-- GETSIG32 (R69). -/
def execGetsig32 (s : State) : Outcome :=
  .next (deliver (zext64 (sigField Config.single (operand32 s.a).toNat)) s)

/-- GETSIG64 (R70). -/
def execGetsig64 (s : State) : Outcome :=
  .next (deliver (zext64 (sigField Config.double (operand64 s.a).toNat)) s)

end Sys2Proof.Machine
end

