-- ==== Sys2Proof/Machine/Rebias.lean ====
section
/-! DEFINITION. exponent_rebias_engine, an internal unit with no `OP` code (41_rebias_rounding.md R73 to R79). -/

namespace Sys2Proof.Machine

/-- The packer's four ranges of the unbiased exponent (R75). -/
inductive DownClass where
  | over
  | normal
  | sub
  | tiny
  deriving DecidableEq, Repr

/-- `CLASS_DOWN(e)`; the comparisons are signed (R75, R87). -/
def classDown (e : Int) : DownClass :=
  if e > Config.emax16 then .over
  else if e ≥ Config.emin16 then .normal
  else if e ≥ Config.esub16 then .sub
  else .tiny

/-- `REBIAS_DOWN(e) = clamp(e + 15, 0, 31)` (R74). -/
def rebiasDown (e : Int) : Nat := (clamp (e + Config.half.bias) 0 Config.half.expFieldMax).toNat

/-- `SUBSHIFT(e, M) = (-14 - e) + (M - 10)` (R76). -/
def subshift (e : Int) (M : Nat) : Nat := ((Config.emin16 - e) + ((M : Int) - Config.keptBits)).toNat

/-- `REBIAS_UP(E16, W) = (E16 - 15) + B` (R77). -/
def rebiasUp (E16 : Nat) (F : Format) : Nat := (((E16 : Int) - Config.half.bias) + F.bias).toNat

/-- `REBIAS_UP_SUB(p, W) = (p - 24) + B` (R78). -/
def rebiasUpSub (p : Nat) (F : Format) : Nat := (((p : Int) + Config.esub16) + F.bias).toNat

end Sys2Proof.Machine
end

