-- ==== Sys2Proof/Machine/Rounding.lean ====
section
/-! DEFINITION. rounding_unit_10bit, an internal unit with no `OP` code: round to nearest, ties to even
(41_rebias_rounding.md R80 to R84). -/

namespace Sys2Proof.Machine

/-- `q0`, the kept bits (R81). -/
def roundKept (v sh : Nat) : Nat := v >>> sh

/-- `g`, the bit immediately below the kept precision (R81). -/
def roundGuard (v sh : Nat) : Nat := (v >>> (sh - 1)) &&& 1

/-- `st`, the OR of every bit below the guard (R81). -/
def roundSticky (v sh : Nat) : Nat := if v &&& (2 ^ (sh - 1) - 1) ≠ 0 then 1 else 0

/-- `lsb`, the least significant kept bit (R81). -/
def roundLsb (v sh : Nat) : Nat := roundKept v sh &&& 1

/-- `inc = g & (st | lsb)` (R82). -/
def roundInc (v sh : Nat) : Nat := roundGuard v sh &&& (roundSticky v sh ||| roundLsb v sh)

/-- `ROUND10(v, sh) = q0 + inc`, for `sh ≥ 1`; the addition does not wrap (R80, R82, R83). -/
def round10 (v sh : Nat) : Nat := roundKept v sh + roundInc v sh

end Sys2Proof.Machine
end

