-- ==== Sys2Proof/Machine/Packer.lean ====
section
/-! DEFINITION. half_precision_packer (42_packer.md R91 to R104): the algorithm once for a wide format, and the two
operations. -/

namespace Sys2Proof.Machine

/-- The exponent field of an infinity or NaN of the 16-bit format, in place: `0x7C00` (R28, R94). -/
def infField16 : Nat := expMask Config.half

/-- The sign bit of the result, `s << 15`: the whole result in the zero and tiny cases (R93, R96). -/
def packSign (s : Nat) : Nat := s <<< signShift Config.half

/-- Case over-range (R94), with the significand field of the NaN as a parameter (U1). -/
def packOver (nanSig : Nat) (F : Format) (s ef f : Nat) : Nat :=
  if ef = F.expFieldMax ∧ f ≠ 0 then packSign s ||| infField16 ||| nanSig
  else packSign s ||| infField16

/-- Case subnormal range (R95). A rounding result of 1024 falls into exponent field bit 10 as it is. -/
def packSub (F : Format) (s : Nat) (e : Int) (f : Nat) : Nat :=
  packSign s ||| round10 (implicitBit F + f) (subshift e F.sigBits)

/-- Case normal (R97). The addition carries a rounding result of 1024 into the exponent. -/
def packNormal (F : Format) (s : Nat) (e : Int) (f : Nat) : Nat :=
  packSign s ||| ((rebiasDown e <<< Config.half.sigBits) + round10 f (F.sigBits - Config.keptBits))

/-- `PACK_W(a)` over the parameter `NAN16_SIG` (R91, R92, U1). -/
def packWith (nanSig : Nat) (F : Format) (a : Nat) : Nat :=
  let s := signField F a
  let ef := expField F a
  let e := unbiasedExp F a
  let f := sigField F a
  if ef = 0 ∧ f = 0 then packSign s
  else
    match classDown e with
    | .over => packOver nanSig F s ef f
    | .sub => packSub F s e f
    | .tiny => packSign s
    | .normal => packNormal F s e f

/-- `PACK_W(a)` (R91). -/
def pack (F : Format) (a : Nat) : Nat := packWith Config.nan16Sig F a

/-- PACK32 (R99). -/
def execPack32 (s : State) : Outcome :=
  .next (deliver (zext64 (pack Config.single (operand32 s.a).toNat)) s)

/-- PACK64 (R100). -/
def execPack64 (s : State) : Outcome :=
  .next (deliver (zext64 (pack Config.double (operand64 s.a).toNat)) s)

end Sys2Proof.Machine
end

