-- ==== Sys2Proof/Machine/Unpacker.lean ====
section
/-! DEFINITION. half_precision_unpacker (43_unpacker.md R105 to R116): the algorithm once for a wide format, and the
two operations. No case rounds. -/

namespace Sys2Proof.Machine

/-- `LEADPOS(f)`, the priority encoder; called only with `1 ≤ f ≤ 1023` (R108). -/
def leadpos (f : Nat) : Nat :=
  if f.testBit 9 then 9
  else if f.testBit 8 then 8
  else if f.testBit 7 then 7
  else if f.testBit 6 then 6
  else if f.testBit 5 then 5
  else if f.testBit 4 then 4
  else if f.testBit 3 then 3
  else if f.testBit 2 then 2
  else if f.testBit 1 then 1
  else 0

/-- `x << (M - 10)`: a 10-bit field to the top of the wide significand field (R109 to R111). -/
def toWideSig (F : Format) (x : Nat) : Nat := x <<< (F.sigBits - Config.keptBits)

/-- Case subnormal (R109): the leading 1 goes to bit 10 and is dropped, the rest to the top of the wide field. -/
def unpackSub (F : Format) (s f : Nat) : Nat :=
  assemble F s (rebiasUpSub (leadpos f) F) (toWideSig F ((f <<< (10 - leadpos f)) &&& sigMask Config.half))

/-- `UNPACK_W(h)` (R105, R106): zero (R107), subnormal (R109), infinity or NaN (R110), normal (R111). -/
def unpack (F : Format) (h : Nat) : Nat :=
  let s := signField Config.half h
  let ef := expField Config.half h
  let f := sigField Config.half h
  if ef = 0 ∧ f = 0 then assemble F s 0 0
  else if ef = 0 then unpackSub F s f
  else if ef = Config.half.expFieldMax then assemble F s F.expFieldMax (toWideSig F f)
  else assemble F s (rebiasUp ef F) (toWideSig F f)

/-- UNPACK32 (R113). -/
def execUnpack32 (s : State) : Outcome :=
  .next (deliver (zext64 (unpack Config.single (operand16 s.a).toNat)) s)

/-- UNPACK64 (R114). -/
def execUnpack64 (s : State) : Outcome :=
  .next (deliver (zext64 (unpack Config.double (operand16 s.a).toNat)) s)

end Sys2Proof.Machine
end

