-- ==== Sys2Proof/Machine/Dispatch.lean ====
section
/-! DEFINITION. One arm per operation of 30_encoding.md R57. -/

namespace Sys2Proof.Machine

def exec (i : Instr) (s : State) : Host.Outcome State Fault Refusal :=
  match i with
  | .pack32 => Sys2Proof.Machine.execPack32 s
  | .pack64 => Sys2Proof.Machine.execPack64 s
  | .unpack32 => Sys2Proof.Machine.execUnpack32 s
  | .unpack64 => Sys2Proof.Machine.execUnpack64 s
  | .getexp32 => Sys2Proof.Machine.execGetexp32 s
  | .getexp64 => Sys2Proof.Machine.execGetexp64 s
  | .getsign32 => Sys2Proof.Machine.execGetsign32 s
  | .getsign64 => Sys2Proof.Machine.execGetsign64 s
  | .getsig32 => Sys2Proof.Machine.execGetsig32 s
  | .getsig64 => Sys2Proof.Machine.execGetsig64 s

end Sys2Proof.Machine
end

