-- ==== Sys2Proof/Machine/Step.lean ====
section
/-! DEFINITION. One step: the host presents the next line of the run, and the block evaluates it. -/

namespace Sys2Proof.Machine

/-- One step. The operation select is decoded before anything about the operand (60_exceptions.md R133): a reserved
code faults (R130). Then the operand is put on `A` (R61, R143) and the operation evaluated (R48). -/
def step (s : State) : Host.Outcome State Fault Refusal :=
  match decode (nextLine s).op with
  | .error .reservedOperationSelect => .fault .reservedOperationSelect
  | .ok i =>
    match resolve s.outcomes (nextLine s) with
    | some a => exec i (present (nextLine s).op a s)
    | none => .refused .operandNotProduced

/-- `s` with the operation of a table word as the next line of the run, its operand what `A` already holds
(log 11). -/
def State.withFetchWord (s : State) (nbits w : Nat) : State :=
  { s with pending := { op := opOfTableWord nbits w, operand := .value s.a } :: s.pending }

end Sys2Proof.Machine
end

