-- ==== Sys2Proof/Machine/Value.lean ====
section
/-! DEFINITION. What a pattern stands for: its class (10_state.md R32), its value (00_scope.md R11) and the order of
non-NaN values (44_properties.md R123). The step reads none of this; the laws are stated with it. -/

namespace Sys2Proof.Machine

/-- The five classes of R32. -/
inductive PatternClass where
  | zero
  | subnormal
  | normal
  | infinity
  | nan
  deriving DecidableEq, Repr

/-- The class of a pattern (R32); the sign plays no part. -/
def classify (F : Format) (a : Nat) : PatternClass :=
  if expField F a = 0 then (if sigField F a = 0 then .zero else .subnormal)
  else if expField F a = F.expFieldMax then (if sigField F a = 0 then .infinity else .nan)
  else .normal

/-- `(-1)^s` (R11). -/
def signFactor (s : Nat) : ℚ := if s = 0 then 1 else -1

/-- The magnitude of a finite pattern (R11): `f * 2^(1 - B - M)` for exponent field 0, else
`(1 + f / 2^M) * 2^(ef - B)`. -/
def magnitude (F : Format) (a : Nat) : ℚ :=
  if expField F a = 0 then (sigField F a : ℚ) * (2 : ℚ) ^ ((1 : ℤ) - F.bias - F.sigBits)
  else (1 + (sigField F a : ℚ) / 2 ^ F.sigBits) * (2 : ℚ) ^ ((expField F a : ℤ) - F.bias)

/-- The number a zero, subnormal or normal pattern stands for (R11). -/
def finiteValue (F : Format) (a : Nat) : ℚ := signFactor (signField F a) * magnitude F a

/-- The value of a pattern; the sign is kept, so that the two zeros are two values (R11). -/
inductive Value where
  | number (sign : Nat) (q : ℚ)
  | infinity (sign : Nat)
  | nan
  deriving DecidableEq

/-- `val(a)` (R11). -/
def val (F : Format) (a : Nat) : Value :=
  match classify F a with
  | .nan => .nan
  | .infinity => .infinity (signField F a)
  | _ => .number (signField F a) (finiteValue F a)

/-- "Not above", for non-NaN values: ordered by number, `-0` below `+0`, the infinities at the ends (R123). Nothing is
related to a NaN. -/
def Value.notAbove : Value → Value → Prop
  | .number s q, .number t r => q < r ∨ (q = r ∧ t ≤ s)
  | .infinity s, .infinity t => t ≤ s
  | .infinity s, .number _ _ => s = 1
  | .number _ _, .infinity t => t = 0
  | .nan, _ => False
  | _, .nan => False

/-- The number a non-NaN half pattern counts as when results are compared for nearness: an infinity counts as `2^16`
with its sign, the value next above the greatest finite one (R103: "magnitudes that round to `2^16` or more giving
infinity"; DEDUCED, log 15). The formula of a normal pattern gives exactly that at exponent field 31. -/
def roundingTarget (h : Nat) : ℚ := finiteValue Config.half h

end Sys2Proof.Machine
end

