-- ==== Sys2Proof/Machine/Flags.lean ====
section
/-! DEFINITION. The block has no flags and no IEEE exception indications (10_state.md R16, R19; 60_exceptions.md R129).
Its one indication is the level `ILL`, a function of `OP` alone. -/

namespace Sys2Proof.Machine

/-- `ILL`: 1 exactly when `fn` is 5, 6 or 7 (R58, R130). -/
def illLevel (op : OpCode) : Level := if fnField op < 5 then 0 else 1

end Sys2Proof.Machine
end

