-- ==== Sys2Proof/Machine/Block.lean ====
section
/-! DEFINITION. The block seen from its ports: the total output function of 10_state.md R23 as 30_encoding.md R56 writes
it, reserved codes included, and the outcome of a run (70_reset_and_hazards.md R153). The machine's step does not use
this file: it is a second description, for statements to compare with. -/

namespace Sys2Proof.Machine

/-- `A[W-1:0]` for the wide format the operation selects (R56). -/
def wideOperand (op : OpCode) (a : Word) : Nat := a.toNat &&& (2 ^ (wideFormat op).width - 1)

/-- `A[15:0]` (R56). -/
def halfOperand (a : Word) : Nat := a.toNat &&& (2 ^ 16 - 1)

/-- (`Y`, `ILL`) for every (`OP`, `A`) (R56). -/
def outputs (op : OpCode) (a : Word) : Outputs :=
  match fnField op with
  | 0 => { y := zext64 (pack (wideFormat op) (wideOperand op a)), ill := 0 }
  | 1 => { y := zext64 (unpack (wideFormat op) (halfOperand a)), ill := 0 }
  | 2 => { y := sext64 (unbiasedExp (wideFormat op) (wideOperand op a)), ill := 0 }
  | 3 => { y := zext64 (signField (wideFormat op) (wideOperand op a)), ill := 0 }
  | 4 => { y := zext64 (sigField (wideFormat op) (wideOperand op a)), ill := 0 }
  | _ => { y := 0, ill := 1 }

/-- The outcomes of a run after those of `done`: each line, a reserved one too, gives its own result and nothing is
held (R153). There is no outcome where a line's operand `%n` has no value (log 8). -/
def blockRun (done : List Outputs) : List Line → Option (List Outputs)
  | [] => some done
  | l :: ls =>
    match resolve done l with
    | some a => blockRun (done ++ [outputs l.op a]) ls
    | none => none

end Sys2Proof.Machine
end

