-- ==== Sys2Proof/WellFormed.lean ====
section
/-! DEFINITION. Well-formed instructions, operation selects and runs. Each check is a Bool. -/

namespace Sys2Proof

/-- `OP4` has no operand field (30_encoding.md R52), so every instruction is well-formed. -/
def Instr.wf : Instr → Bool
  | .pack32 => true
  | .pack64 => true
  | .unpack32 => true
  | .unpack64 => true
  | .getexp32 => true
  | .getexp64 => true
  | .getsign32 => true
  | .getsign64 => true
  | .getsig32 => true
  | .getsig64 => true

/-- The operation select is one of the ten codes of R57, not a reserved one (R58). -/
def opDefined (op : OpCode) : Bool := decide (op.toNat < 10)

/-- An operand of a line that `n` lines precede: a value, or `%k` with `1 ≤ k ≤ n` (R61). -/
def sourceWf (n : Nat) : Machine.Source → Bool
  | .value _ => true
  | .result k => decide (1 ≤ k) && decide (k ≤ n)

/-- A line that `n` lines precede. -/
def lineWf (n : Nat) (l : Machine.Line) : Bool := opDefined l.op && sourceWf n l.operand

/-- A run whose first line is preceded by `n` lines (R153). -/
def runWf : Nat → List Machine.Line → Bool
  | _, [] => true
  | n, l :: ls => lineWf n l && runWf (n + 1) ls

end Sys2Proof
end

