-- ==== Sys2Proof/Safety.lean ====
section
/-! DEFINITION. What counts as a safe state and as ports in agreement. -/

namespace Sys2Proof

/-- The output ports carry the block's function of the input ports (10_state.md R23). -/
def PortsAgree (s : Machine.State) : Prop := Machine.outputs s.op s.a = { y := s.y, ill := s.ill }

/-- No outcome read so far has `ILL = 1`: the run has not gone wrong (70_reset_and_hazards.md R153). -/
def NoFaultRecorded (s : Machine.State) : Prop := ∀ o ∈ s.outcomes, o.ill = 0

/-- The run ahead is well-formed: every operation select still to be presented is defined and every `%n` names an
earlier line; and the pair on the ports may be evaluated again (log 4). -/
def Safe (s : Machine.State) : Prop :=
  opDefined s.op = true ∧ NoFaultRecorded s ∧ runWf s.outcomes.length s.pending = true

end Sys2Proof
end

