-- ==== Sys2Proof/Certificates/Slice0/Obligations.lean ====
section
/-! DEFINITION. The statements for the provers. Each formalises rules of spec/; OBLIGATIONS.json names them. The helpers
of the namespace Sys2Proof.Rules write the spec's pseudocode out with its own constants, apart from the model. -/

namespace Sys2Proof.Rules

open Sys2Proof.Machine

/-- The two wide formats (00_scope.md R12). -/
def IsWide (F : Format) : Prop := F = Config.single ∨ F = Config.double

/-- A next state: `Y` is `v`, `ILL` is 0, and nothing else changed (R23), but for the pair the host has read being added
to the outcomes of the run, which is the model's form of R153 (log 2) and no part of the rule a statement cites. -/
def answers (s : State) (v : Word) : Outcome :=
  .next { s with y := v, ill := 0, outcomes := s.outcomes ++ [{ y := v, ill := 0 }] }

/-- The low `n` bits of `A` as a number (R53). -/
def low (n : Nat) (a : Word) : Nat := a.toNat % 2 ^ n

/-- The pseudocode of R99, with its constants. -/
def pack32 (a : Nat) : Nat :=
  let s := (a >>> 31) &&& 1
  let ef := (a >>> 23) &&& 0xFF
  let e : Int := (ef : Int) - 127
  let f := a &&& 0x007FFFFF
  if ef = 0 ∧ f = 0 then s <<< 15
  else if e > 15 then
    if ef = 0xFF ∧ f ≠ 0 then (s <<< 15) ||| 0x7E00 else (s <<< 15) ||| 0x7C00
  else if e ≥ -24 ∧ e ≤ -15 then
    (s <<< 15) ||| round10 (0x00800000 ||| f) ((-14 - e) + 13).toNat
  else if e < -24 then s <<< 15
  else (s <<< 15) ||| (((e + 15).toNat <<< 10) + round10 f 13)

/-- The pseudocode of R100, with its constants. -/
def pack64 (a : Nat) : Nat :=
  let s := (a >>> 63) &&& 1
  let ef := (a >>> 52) &&& 0x7FF
  let e : Int := (ef : Int) - 1023
  let f := a &&& 0x000FFFFFFFFFFFFF
  if ef = 0 ∧ f = 0 then s <<< 15
  else if e > 15 then
    if ef = 0x7FF ∧ f ≠ 0 then (s <<< 15) ||| 0x7E00 else (s <<< 15) ||| 0x7C00
  else if e ≥ -24 ∧ e ≤ -15 then
    (s <<< 15) ||| round10 (0x0010000000000000 ||| f) ((-14 - e) + 42).toNat
  else if e < -24 then s <<< 15
  else (s <<< 15) ||| (((e + 15).toNat <<< 10) + round10 f 42)

/-- The position of the leading 1 (R108) of a number other than 0, as the base-2 logarithm. -/
def topBit (f : Nat) : Nat := Nat.log2 f

/-- The pseudocode of R113, with its constants. -/
def unpack32 (h : Nat) : Nat :=
  let s := (h >>> 15) &&& 1
  let ef := (h >>> 10) &&& 0x1F
  let f := h &&& 0x3FF
  if ef = 0 ∧ f = 0 then s <<< 31
  else if ef = 0 then
    (s <<< 31) ||| ((topBit f + 103) <<< 23) ||| (((f <<< (10 - topBit f)) &&& 0x3FF) <<< 13)
  else if ef = 0x1F then (s <<< 31) ||| 0x7F800000 ||| (f <<< 13)
  else (s <<< 31) ||| ((ef + 112) <<< 23) ||| (f <<< 13)

/-- The pseudocode of R114, with its constants. -/
def unpack64 (h : Nat) : Nat :=
  let s := (h >>> 15) &&& 1
  let ef := (h >>> 10) &&& 0x1F
  let f := h &&& 0x3FF
  if ef = 0 ∧ f = 0 then s <<< 63
  else if ef = 0 then
    (s <<< 63) ||| ((topBit f + 999) <<< 52) ||| (((f <<< (10 - topBit f)) &&& 0x3FF) <<< 42)
  else if ef = 0x1F then (s <<< 63) ||| 0x7FF0000000000000 ||| (f <<< 42)
  else (s <<< 63) ||| ((ef + 1008) <<< 52) ||| (f <<< 42)

/-- The corner cases R99 lists: operand and result. -/
def pack32Corners : List (Nat × Nat) :=
  [ (0x00000000, 0x0000), (0x80000000, 0x8000), (0x477FE000, 0x7BFF), (0x477FF000, 0x7C00), (0x477FEFFF, 0x7BFF),
    (0x3F801000, 0x3C00), (0x3F803000, 0x3C02), (0x3FFFF000, 0x4000), (0x38800000, 0x0400), (0x387FE000, 0x0400),
    (0x33800000, 0x0001), (0x33C00000, 0x0002), (0x33000000, 0x0000), (0x33400000, 0x0000), (0x7FC00000, 0x7E00),
    (0x7F800001, 0x7E00), (0xFFFFFFFF, 0xFE00), (0xC0200000, 0xC100) ]

/-- The corner cases R100 lists: operand and result. -/
def pack64Corners : List (Nat × Nat) :=
  [ (0x40EFFC0000000000, 0x7BFF), (0x40EFFE0000000000, 0x7C00), (0x40EFFDFFFFFFFFFF, 0x7BFF),
    (0x3FF0020000000000, 0x3C00), (0x3FF0020000000001, 0x3C01), (0x3F0FFC0000000000, 0x0400),
    (0x3E70000000000000, 0x0001), (0x3E60000000000000, 0x0000), (0x3E68000000000000, 0x0000),
    (0x7FF8000000000000, 0x7E00), (0x7FF0000000000001, 0x7E00), (0xFFFFFFFFFFFFFFFF, 0xFE00),
    (0x3FF0000000000000, 0x3C00) ]

/-- The corner cases R113 lists: operand and result. -/
def unpack32Corners : List (Nat × Nat) :=
  [ (0x0000, 0x00000000), (0x8000, 0x80000000), (0x0001, 0x33800000), (0x03FF, 0x387FC000), (0x0400, 0x38800000),
    (0x7BFF, 0x477FE000), (0x7C00, 0x7F800000), (0xFC00, 0xFF800000), (0x7E00, 0x7FC00000), (0x7C01, 0x7F802000),
    (0xFFFF, 0xFFFFE000), (0xC100, 0xC0200000) ]

/-- The corner cases R114 lists: operand and result. -/
def unpack64Corners : List (Nat × Nat) :=
  [ (0x0000, 0x0000000000000000), (0x8000, 0x8000000000000000), (0x0001, 0x3E70000000000000),
    (0x03FF, 0x3F0FF80000000000), (0x0400, 0x3F10000000000000), (0x7BFF, 0x40EFFC0000000000),
    (0x7C00, 0x7FF0000000000000), (0xFC00, 0xFFF0000000000000), (0x7E00, 0x7FF8000000000000),
    (0x7C01, 0x7FF0040000000000), (0xFFFF, 0xFFFFFC0000000000), (0x3C00, 0x3FF0000000000000) ]

/-- How many low bits of `A` each operation uses (R53). -/
def laneOf : Instr → Nat
  | .pack32 => 32
  | .pack64 => 64
  | .unpack32 => 16
  | .unpack64 => 16
  | .getexp32 => 32
  | .getexp64 => 64
  | .getsign32 => 32
  | .getsign64 => 64
  | .getsig32 => 32
  | .getsig64 => 64

/-- The band of R103, where the packer is not the nearest value: `e == -25` and `f != 0`. -/
def InBand (F : Format) (a : Nat) : Prop := unbiasedExp F a = -25 ∧ sigField F a ≠ 0

/-- A line whose operand is a value, as the pair the host presents (R153). -/
def valueLine (p : OpCode × Word) : Line := { op := p.1, operand := .value p.2 }

end Sys2Proof.Rules

open Sys2Proof Sys2Proof.Machine Sys2Proof.Rules

/-! ### Encoding and decoding -/

/-- The words of R57's map, written out, decode to their operations, and the six reserved words of R58 to none. -/
def Obligations.OperationMapWordsDecode : Prop :=
  decode 0b0000#4 = .ok .pack32 ∧ decode 0b0001#4 = .ok .pack64 ∧
  decode 0b0010#4 = .ok .unpack32 ∧ decode 0b0011#4 = .ok .unpack64 ∧
  decode 0b0100#4 = .ok .getexp32 ∧ decode 0b0101#4 = .ok .getexp64 ∧
  decode 0b0110#4 = .ok .getsign32 ∧ decode 0b0111#4 = .ok .getsign64 ∧
  decode 0b1000#4 = .ok .getsig32 ∧ decode 0b1001#4 = .ok .getsig64 ∧
  ∀ op ∈ [0b1010#4, 0b1011#4, 0b1100#4, 0b1101#4, 0b1110#4, 0b1111#4],
    decode op = .error .reservedOperationSelect

/-- The map of R57 (read by match and mask) and the fields `fn`, `w` of R49 to R51 (the encoder) name the same
operation, in both directions: no operation has two codes (R59). -/
def Obligations.DecodeAndEncodeAgree : Prop :=
  ∀ (op : OpCode) (i : Instr), i.wf = true → (decode op = .ok i ↔ encode i = op)

/-- The spec's own decision D3 (R55): every one of the 16 values is one of the ten operations or reserved, and
decoding reads `OP` only: whether a step stops on a reserved select (log 5) depends on nothing but the operation
select presented (log 6). -/
def Obligations.DecodingIsTotalAndReadsOnlyOp : Prop :=
  (∀ op : OpCode, ((∃ i, decode op = .ok i) ∧ op.toNat < 10) ∨
    (decode op = .error .reservedOperationSelect ∧ 10 ≤ op.toNat)) ∧
  (∀ s t : State, (nextLine s).op = (nextLine t).op →
    (step s = .fault .reservedOperationSelect ↔ step t = .fault .reservedOperationSelect))

/-! ### The step, the ports and the frame -/

/-- A step runs the decoded operation: with nothing pending it evaluates the pair on the ports (log 4), else the next
line, whose operand is put on `A` (R48, R143, R153). -/
def Obligations.StepRunsDecodedOperation : Prop :=
  (∀ (s : State) (i : Instr), s.pending = [] → decode s.op = .ok i → step s = exec i s) ∧
  (∀ (s : State) (l : Line) (ls : List Line) (i : Instr) (a : Word), s.pending = l :: ls →
    decode l.op = .ok i → resolve s.outcomes l = some a →
    step s = exec i { s with op := l.op, a := a, pending := ls })

/-- The spec's own decision D6 and its inference of R133: the one fault (R130; log 5, log 6). A step stops with it
exactly when the presented `OP` is 0xA to 0xF, whatever the operand; the block then drives `ILL = 1`, `Y = 0` for
every `A`, and `ILL` is 0 for every other `OP`. -/
def Obligations.ReservedSelectIsTheOneFault : Prop :=
  (∀ (s : State) (r : Fault), step s = .fault r ↔ 10 ≤ (nextLine s).op.toNat) ∧
  (∀ (op : OpCode) (a : Word), ((outputs op a).ill = 1 ↔ 10 ≤ op.toNat) ∧
    ((outputs op a).ill = 0 ↔ op.toNat < 10) ∧
    (10 ≤ op.toNat → (outputs op a).y = 0) ∧ illLevel op = (outputs op a).ill)

/-- No operand makes an operation stop (R118, R129): a step is refused only for a line whose operand `%n` names no
line that has run, or one whose `ILL` was 1 (the model's input language, log 8), and never for a value; a reserved
select is looked at first (log 6). -/
def Obligations.OnlyMissingResultIsRefused : Prop :=
  ∀ (s : State) (r : Refusal), step s = .refused r ↔
    r = .operandNotProduced ∧ (nextLine s).op.toNat < 10 ∧
      ∃ n, (nextLine s).operand = .result n ∧
        (n = 0 ∨ s.outcomes.length < n ∨ ∃ o, s.outcomes[n - 1]? = some o ∧ o.ill = 1)

/-- R23: after every step `Y` and `ILL` are the function R56 gives of `OP` and `A`, and steps that leave equal (`OP`,
`A`) on the ports leave equal (`Y`, `ILL`), whatever went before. -/
def Obligations.OutputsAreAFunctionOfTheInputs : Prop :=
  (∀ s t : State, step s = .next t → outputs t.op t.a = { y := t.y, ill := t.ill }) ∧
  (∀ s₁ s₂ t₁ t₂ : State, step s₁ = .next t₁ → step s₂ = .next t₂ → t₁.op = t₂.op → t₁.a = t₂.a →
    t₁.y = t₂.y ∧ t₁.ill = t₂.ill)

/-- The meaning of each operation is what the dispatch pseudocode of R56 drives for its code, with `ILL = 0`. -/
def Obligations.ExecMatchesDispatchPseudocode : Prop :=
  ∀ (i : Instr) (s : State),
    exec i s = answers s (outputs (encode i) s.a).y ∧ (outputs (encode i) s.a).ill = 0

/-- The frame of all ten operations: the inputs stay as they are and `ILL` is 0 (R22, R23). That the lines ahead stay too
and the outcomes grow by the pair the host reads is the model's choice: it holds the host's run of R153 in its state (log
2). -/
def Obligations.ExecFrame : Prop :=
  ∀ (i : Instr) (s t : State), exec i s = .next t →
    t.op = s.op ∧ t.a = s.a ∧ t.pending = s.pending ∧ t.ill = 0 ∧
    t.outcomes = s.outcomes ++ [{ y := t.y, ill := t.ill }]

/-- The spec's own decision D4 (R53): the bits of `A` above the operand's lane are ignored: two operands that agree on
the lane give the same result. -/
def Obligations.BitsAboveTheLaneAreIgnored : Prop :=
  (∀ i : Instr, laneBits (encode i) = laneOf i) ∧
  (∀ (i : Instr) (s : State) (b : Word), low (laneOf i) s.a = low (laneOf i) b →
    ∃ v : Word, exec i s = answers s v ∧ exec i { s with a := b } = answers { s with a := b } v)

/-- The spec's own decision D5 (R54): the result lanes. PACK, UNPACK, GETSIGN and GETSIG are zero-extended from 16, 32
or 64, 1, 23 or 52 bits; GETEXP is the signed exponent, sign-extended; a reserved `OP` has `Y = 0`, `ILL = 1`. -/
def Obligations.ResultLanes : Prop :=
  (∀ s : State,
    (∃ v : Word, exec .pack32 s = answers s v ∧ v.toNat = pack Config.single (low 32 s.a) ∧ v.toNat < 2 ^ 16) ∧
    (∃ v : Word, exec .pack64 s = answers s v ∧ v.toNat = pack Config.double (low 64 s.a) ∧ v.toNat < 2 ^ 16) ∧
    (∃ v : Word, exec .unpack32 s = answers s v ∧ v.toNat = unpack Config.single (low 16 s.a) ∧ v.toNat < 2 ^ 32) ∧
    (∃ v : Word, exec .unpack64 s = answers s v ∧ v.toNat = unpack Config.double (low 16 s.a)) ∧
    (∃ v : Word, exec .getexp32 s = answers s v ∧ v.toInt = unbiasedExp Config.single (low 32 s.a)) ∧
    (∃ v : Word, exec .getexp64 s = answers s v ∧ v.toInt = unbiasedExp Config.double (low 64 s.a)) ∧
    (∃ v : Word, exec .getsign32 s = answers s v ∧ v.toNat = signField Config.single (low 32 s.a) ∧ v.toNat < 2) ∧
    (∃ v : Word, exec .getsign64 s = answers s v ∧ v.toNat = signField Config.double (low 64 s.a) ∧ v.toNat < 2) ∧
    (∃ v : Word, exec .getsig32 s = answers s v ∧ v.toNat = sigField Config.single (low 32 s.a) ∧ v.toNat < 2 ^ 23) ∧
    (∃ v : Word, exec .getsig64 s = answers s v ∧ v.toNat = sigField Config.double (low 64 s.a) ∧ v.toNat < 2 ^ 52)) ∧
  (∀ (op : OpCode) (a : Word), 10 ≤ op.toNat → outputs op a = { y := 0, ill := 1 })

/-! ### Field extractor -/

/-- R65: code, result, and the two ends of the exponent field. -/
def Obligations.Getexp32Result : Prop :=
  encode .getexp32 = 0x4#4 ∧
  (∀ s : State, exec .getexp32 s =
    answers s (BitVec.ofInt 64 ((((low 32 s.a >>> 23) &&& 0xFF : Nat) : Int) - 127))) ∧
  (∀ s : State, (low 32 s.a >>> 23) &&& 0xFF = 0 → exec .getexp32 s = answers s 0xFFFFFFFFFFFFFF81#64) ∧
  (∀ s : State, (low 32 s.a >>> 23) &&& 0xFF = 255 → exec .getexp32 s = answers s 0x0000000000000080#64)

/-- R66: code, result, and the two ends of the exponent field. -/
def Obligations.Getexp64Result : Prop :=
  encode .getexp64 = 0x5#4 ∧
  (∀ s : State, exec .getexp64 s =
    answers s (BitVec.ofInt 64 ((((s.a.toNat >>> 52) &&& 0x7FF : Nat) : Int) - 1023))) ∧
  (∀ s : State, (s.a.toNat >>> 52) &&& 0x7FF = 0 → exec .getexp64 s = answers s 0xFFFFFFFFFFFFFC01#64) ∧
  (∀ s : State, (s.a.toNat >>> 52) &&& 0x7FF = 2047 → exec .getexp64 s = answers s 0x0000000000000400#64)

/-- R67: code and result; the result is 1 exactly for patterns with bit 31 set, and 0 otherwise, never a sign-extended
value. -/
def Obligations.Getsign32Result : Prop :=
  encode .getsign32 = 0x6#4 ∧
  (∀ s : State, exec .getsign32 s = answers s (BitVec.ofNat 64 ((low 32 s.a &&& 0x80000000) >>> 31))) ∧
  (∀ s : State, exec .getsign32 s = answers s (if 2 ^ 31 ≤ low 32 s.a then 1 else 0))

/-- R68: code and result; the result is 1 exactly for patterns with bit 63 set, and 0 otherwise. -/
def Obligations.Getsign64Result : Prop :=
  encode .getsign64 = 0x7#4 ∧
  (∀ s : State, exec .getsign64 s = answers s (BitVec.ofNat 64 ((s.a.toNat &&& 0x8000000000000000) >>> 63))) ∧
  (∀ s : State, exec .getsign64 s = answers s (if 2 ^ 63 ≤ s.a.toNat then 1 else 0))

/-- R69: code and result; the implicit bit is not added (1.0 gives 0), an infinity gives 0 and a NaN its nonzero
payload. -/
def Obligations.Getsig32Result : Prop :=
  encode .getsig32 = 0x8#4 ∧
  (∀ s : State, exec .getsig32 s = answers s (BitVec.ofNat 64 (low 32 s.a &&& 0x007FFFFF))) ∧
  (∀ s : State, low 32 s.a = 0x3F800000 → exec .getsig32 s = answers s 0) ∧
  (∀ s : State, classify Config.single (low 32 s.a) = .infinity → exec .getsig32 s = answers s 0) ∧
  (∀ s : State, classify Config.single (low 32 s.a) = .nan → ∃ v : Word, v ≠ 0 ∧ exec .getsig32 s = answers s v)

/-- R70: code and result; the implicit bit is not added. -/
def Obligations.Getsig64Result : Prop :=
  encode .getsig64 = 0x9#4 ∧
  (∀ s : State, exec .getsig64 s = answers s (BitVec.ofNat 64 (s.a.toNat &&& 0x000FFFFFFFFFFFFF))) ∧
  (∀ s : State, s.a = 0x3FF0000000000000#64 → exec .getsig64 s = answers s 0) ∧
  (∀ s : State, classify Config.double s.a.toNat = .infinity → exec .getsig64 s = answers s 0) ∧
  (∀ s : State, classify Config.double s.a.toNat = .nan → ∃ v : Word, v ≠ 0 ∧ exec .getsig64 s = answers s v)

/-- R63: the four field functions are the slices of the pattern, and their ranges. -/
def Obligations.FieldFunctionsAreSlices : Prop :=
  ∀ (F : Format) (a : Nat), IsWide F → a < 2 ^ F.width →
    signField F a = a / 2 ^ (F.width - 1) ∧ signField F a ≤ 1 ∧
    expField F a = a / 2 ^ F.sigBits % 2 ^ F.expBits ∧ expField F a ≤ 2 ^ F.expBits - 1 ∧
    unbiasedExp F a = (expField F a : Int) - F.bias ∧
    -(F.bias : Int) ≤ unbiasedExp F a ∧ unbiasedExp F a ≤ F.bias + 1 ∧
    sigField F a = a % 2 ^ F.sigBits ∧ sigField F a ≤ 2 ^ F.sigBits - 1

/-- The inference the spec draws in R71: a pattern is reassembled from its three fields, which do not overlap, and
every triple in range is the fields of the pattern assembled from it. -/
def Obligations.FieldsReassemble : Prop :=
  ∀ F : Format, IsWide F →
    (∀ a < 2 ^ F.width,
      a = (signField F a <<< (F.width - 1)) ||| ((unbiasedExp F a + F.bias).toNat <<< F.sigBits) ||| sigField F a ∧
      (signField F a <<< (F.width - 1)) &&& ((unbiasedExp F a + F.bias).toNat <<< F.sigBits) = 0 ∧
      (signField F a <<< (F.width - 1)) &&& sigField F a = 0 ∧
      ((unbiasedExp F a + F.bias).toNat <<< F.sigBits) &&& sigField F a = 0) ∧
    (∀ (s f : Nat) (e : Int), s ≤ 1 → -(F.bias : Int) ≤ e → e ≤ F.bias + 1 → f < 2 ^ F.sigBits →
      signField F ((s <<< (F.width - 1)) ||| ((e + F.bias).toNat <<< F.sigBits) ||| f) = s ∧
      unbiasedExp F ((s <<< (F.width - 1)) ||| ((e + F.bias).toNat <<< F.sigBits) ||| f) = e ∧
      sigField F ((s <<< (F.width - 1)) ||| ((e + F.bias).toNat <<< F.sigBits) ||| f) = f)

/-! ### Rebias engine and rounding unit -/

/-- R74: `REBIAS_DOWN(e)` is `e + 15` clamped to 0 .. 31, and its three regions; it is the exponent field of the
packer's result before any rounding carry, which may add one to it. -/
def Obligations.RebiasDownIsTheResultField : Prop :=
  (∀ e : Int, (rebiasDown e : Int) = max 0 (min 31 (e + 15)) ∧
    (e > 15 → rebiasDown e = 0x1F) ∧
    (-14 ≤ e → e ≤ 15 → (rebiasDown e : Int) = e + 15 ∧ 1 ≤ rebiasDown e ∧ rebiasDown e ≤ 30) ∧
    (e < -14 → rebiasDown e = 0)) ∧
  (∀ (F : Format) (a : Nat), IsWide F → a < 2 ^ F.width →
    expField Config.half (pack F a) = rebiasDown (unbiasedExp F a) ∨
    expField Config.half (pack F a) = rebiasDown (unbiasedExp F a) + 1)

/-- R75: the four ranges; as the conditions exclude each other and cover every `e`, exactly one class holds. -/
def Obligations.ClassDownRanges : Prop :=
  ∀ e : Int, (classDown e = .over ↔ e > 15) ∧ (classDown e = .normal ↔ -14 ≤ e ∧ e ≤ 15) ∧
    (classDown e = .sub ↔ -24 ≤ e ∧ e ≤ -15) ∧ (classDown e = .tiny ↔ e < -24)

/-- The inference the spec draws in R76: the shift of the subnormal path, its range with both ends, and why it is the
right shift: `v * 2^(e - M)` is `v / 2^sh` units of `2^-24`. -/
def Obligations.SubshiftBringsToSubnormalScale : Prop :=
  ∀ (F : Format) (e : Int), IsWide F → -24 ≤ e → e ≤ -15 →
    (subshift e F.sigBits : Int) = (-14 - e) + (F.sigBits - 10) ∧
    F.sigBits - 9 ≤ subshift e F.sigBits ∧ subshift e F.sigBits ≤ F.sigBits ∧
    subshift (-15) F.sigBits = F.sigBits - 9 ∧ subshift (-24) F.sigBits = F.sigBits ∧
    ∀ v : Nat, (v : ℚ) * (2 : ℚ) ^ (e - F.sigBits) = (v : ℚ) / 2 ^ subshift e F.sigBits * (2 : ℚ) ^ (-24 : ℤ)

/-- The wide exponent fields of a normal half (R77) and of a subnormal half (R78, which the spec marks as derived), in
numbers; each is a normal wide field. -/
def Obligations.RebiasUpFormulas : Prop :=
  (∀ E16 : Nat, 1 ≤ E16 → E16 ≤ 30 →
    (∀ F : Format, IsWide F → (rebiasUp E16 F : Int) = ((E16 : Int) - 15) + F.bias ∧
      0 < rebiasUp E16 F ∧ rebiasUp E16 F < 2 ^ F.expBits - 1) ∧
    rebiasUp E16 Config.single = E16 + 112 ∧ rebiasUp E16 Config.double = E16 + 1008) ∧
  (∀ p : Nat, p ≤ 9 →
    (∀ F : Format, IsWide F → (rebiasUpSub p F : Int) = ((p : Int) - 24) + F.bias ∧
      0 < rebiasUpSub p F ∧ rebiasUpSub p F < 2 ^ F.expBits - 1) ∧
    rebiasUpSub p Config.single = p + 103 ∧ rebiasUpSub p Config.double = p + 999)

/-- R79: the whole half-to-wide exponent map, read off the results of the unpacker. -/
def Obligations.HalfToWideExponentMap : Prop :=
  ∀ h < 2 ^ 16,
    (classify Config.half h = .zero → expField Config.half h = 0 ∧
      expField Config.single (unpack Config.single h) = 0 ∧ expField Config.double (unpack Config.double h) = 0) ∧
    (classify Config.half h = .subnormal → expField Config.half h = 0 ∧
      expField Config.single (unpack Config.single h) = topBit (sigField Config.half h) + 103 ∧
      expField Config.double (unpack Config.double h) = topBit (sigField Config.half h) + 999) ∧
    (classify Config.half h = .normal → 1 ≤ expField Config.half h ∧ expField Config.half h ≤ 30 ∧
      expField Config.single (unpack Config.single h) = expField Config.half h + 112 ∧
      expField Config.double (unpack Config.double h) = expField Config.half h + 1008) ∧
    (classify Config.half h = .infinity ∨ classify Config.half h = .nan → expField Config.half h = 31 ∧
      expField Config.single (unpack Config.single h) = 255 ∧ expField Config.double (unpack Config.double h) = 2047)

/-- The spec's own decision D7 (R82, log 10): the increment rule's truth table, and the result. -/
def Obligations.RoundIncrementTruthTable : Prop :=
  ∀ v sh : Nat, 1 ≤ sh →
    round10 v sh = roundKept v sh + roundInc v sh ∧
    (roundGuard v sh = 0 ∨ roundGuard v sh = 1) ∧ (roundSticky v sh = 0 ∨ roundSticky v sh = 1) ∧
    (roundLsb v sh = 0 ∨ roundLsb v sh = 1) ∧
    (roundGuard v sh = 0 → roundInc v sh = 0) ∧
    (roundGuard v sh = 1 → roundSticky v sh = 0 → roundLsb v sh = 0 → roundInc v sh = 0) ∧
    (roundGuard v sh = 1 → roundSticky v sh = 0 → roundLsb v sh = 1 → roundInc v sh = 1) ∧
    (roundGuard v sh = 1 → roundSticky v sh = 1 → roundInc v sh = 1)

/-- The inference the spec draws in R83: ranges of the kept value and of the result on the two paths, 1024 included
and not cut. -/
def Obligations.RoundingRangeOnBothPaths : Prop :=
  ∀ (F : Format) (f : Nat), IsWide F → f < 2 ^ F.sigBits →
    (roundKept f (F.sigBits - 10) ≤ 1023 ∧ round10 f (F.sigBits - 10) ≤ 1024) ∧
    (∀ e : Int, -24 ≤ e → e ≤ -15 →
      1 ≤ roundKept (2 ^ F.sigBits + f) (subshift e F.sigBits) ∧
      roundKept (2 ^ F.sigBits + f) (subshift e F.sigBits) ≤ 1023 ∧
      1 ≤ round10 (2 ^ F.sigBits + f) (subshift e F.sigBits) ∧
      round10 (2 ^ F.sigBits + f) (subshift e F.sigBits) ≤ 1024) ∧
    round10 (2 ^ F.sigBits - 1) (F.sigBits - 10) = 1024

/-- The inferences the spec draws in R85 and R86 from its decision D7 (log 10): `ROUND10(v, sh)` is within half of `v
/ 2^sh`, even at a tie, and the only integer that is both; with the `sh` low bits all zero nothing is lost. -/
def Obligations.RoundingIsNearestTiesToEven : Prop :=
  ∀ v sh : Nat, 1 ≤ sh →
    |(round10 v sh : ℚ) - (v : ℚ) / 2 ^ sh| ≤ 1 / 2 ∧
    (|(round10 v sh : ℚ) - (v : ℚ) / 2 ^ sh| = 1 / 2 → round10 v sh % 2 = 0) ∧
    (∀ n : ℤ, |(n : ℚ) - (v : ℚ) / 2 ^ sh| ≤ 1 / 2 → (|(n : ℚ) - (v : ℚ) / 2 ^ sh| = 1 / 2 → n % 2 = 0) →
      n = round10 v sh) ∧
    (v % 2 ^ sh = 0 → roundGuard v sh = 0 ∧ roundSticky v sh = 0 ∧ round10 v sh = v >>> sh)

/-! ### Packer -/

/-- R99: code, pseudocode with its constants, listed corner cases, and every 32-bit subnormal to a signed zero. -/
def Obligations.Pack32Result : Prop :=
  encode .pack32 = 0x0#4 ∧
  (∀ s : State, exec .pack32 s = answers s (BitVec.ofNat 64 (Rules.pack32 (low 32 s.a)))) ∧
  (∀ c ∈ pack32Corners, Rules.pack32 c.1 = c.2) ∧
  (∀ a : Nat, 0x47800000 ≤ a → a ≤ 0x7F800000 →
    Rules.pack32 a = 0x7C00 ∧ Rules.pack32 (2 ^ 31 + a) = 0xFC00) ∧
  (∀ f : Nat, 0 < f → f < 2 ^ 23 → Rules.pack32 f = 0x0000 ∧ Rules.pack32 (0x80000000 + f) = 0x8000)

/-- R100: code, pseudocode with its constants, listed corner cases, and every 64-bit subnormal to a signed zero. -/
def Obligations.Pack64Result : Prop :=
  encode .pack64 = 0x1#4 ∧
  (∀ s : State, exec .pack64 s = answers s (BitVec.ofNat 64 (Rules.pack64 s.a.toNat))) ∧
  (∀ c ∈ pack64Corners, Rules.pack64 c.1 = c.2) ∧
  (∀ a : Nat, 0x40F0000000000000 ≤ a → a ≤ 0x7FF0000000000000 →
    Rules.pack64 a = 0x7C00 ∧ Rules.pack64 (2 ^ 63 + a) = 0xFC00) ∧
  (∀ f : Nat, 0 < f → f < 2 ^ 52 → Rules.pack64 f = 0x0000 ∧ Rules.pack64 (0x8000000000000000 + f) = 0x8000)

/-- R93, R96: a wide zero, and every operand with `e < -24`, gives the zero of its sign, whatever `f` is. -/
def Obligations.PackZeroAndTinyGiveSignedZero : Prop :=
  ∀ (F : Format) (a : Nat), IsWide F → a < 2 ^ F.width →
    (expField F a = 0 → sigField F a = 0 →
      pack F a = signField F a <<< 15 ∧ (signField F a = 0 → pack F a = 0x0000) ∧
      (signField F a = 1 → pack F a = 0x8000)) ∧
    (unbiasedExp F a < -24 → pack F a = signField F a <<< 15) ∧
    (expField F a = 0 → unbiasedExp F a = -(F.bias : Int) ∧ pack F a = signField F a <<< 15)

/-- The case of R94: `e > 15` gives the canonical NaN of the operand's sign for a NaN and else the infinity of its
sign; wide infinities and NaNs always reach the case. The NaN's significand field and sign are the spec's own decision
D9 (log 9). -/
def Obligations.PackOverRangeGivesInfinityOrNan : Prop :=
  ∀ (F : Format) (a : Nat), IsWide F → a < 2 ^ F.width →
    (unbiasedExp F a > 15 → expField F a = 2 ^ F.expBits - 1 → sigField F a ≠ 0 →
      (signField F a = 0 → pack F a = 0x7E00) ∧ (signField F a = 1 → pack F a = 0xFE00)) ∧
    (unbiasedExp F a > 15 → ¬(expField F a = 2 ^ F.expBits - 1 ∧ sigField F a ≠ 0) →
      (signField F a = 0 → pack F a = 0x7C00) ∧ (signField F a = 1 → pack F a = 0xFC00)) ∧
    (expField F a = 2 ^ F.expBits - 1 → unbiasedExp F a = F.bias + 1 ∧ unbiasedExp F a > 15)

/-- The case of R95, rounding and carry by the spec's own decision D8 (log 10): the subnormal range. The result is the
sign bit over `r`, `r` in 1 .. 1024; `r` is 1024 exactly for `e == -15` and the top ten bits of `f` all ones, and the
pattern is then the least normal half. -/
def Obligations.PackSubnormalRange : Prop :=
  ∀ (F : Format) (a : Nat), IsWide F → a < 2 ^ F.width → -24 ≤ unbiasedExp F a → unbiasedExp F a ≤ -15 →
    ∃ r : Nat,
      r = round10 (2 ^ F.sigBits + sigField F a) ((-14 - unbiasedExp F a) + (F.sigBits - 10)).toNat ∧
      1 ≤ r ∧ r ≤ 1024 ∧ pack F a = (signField F a <<< 15) ||| r ∧
      (r ≤ 1023 → expField Config.half (pack F a) = 0 ∧ sigField Config.half (pack F a) = r) ∧
      (r = 1024 ↔ unbiasedExp F a = -15 ∧ 2 ^ F.sigBits - 2 ^ (F.sigBits - 10) ≤ sigField F a) ∧
      (r = 1024 → pack F a = (signField F a <<< 15) ||| 0x0400)

/-- R97: the normal case. The rounding result is added to the exponent in place; 1024 carries into it, and past the
exponent 30 to the infinity pattern; the sum never reaches the sign bit. -/
def Obligations.PackNormalRange : Prop :=
  ∀ (F : Format) (a : Nat), IsWide F → a < 2 ^ F.width → -14 ≤ unbiasedExp F a → unbiasedExp F a ≤ 15 →
    ∃ E16 r : Nat,
      (E16 : Int) = unbiasedExp F a + 15 ∧ 1 ≤ E16 ∧ E16 ≤ 30 ∧
      r = round10 (sigField F a) (F.sigBits - 10) ∧ r ≤ 1024 ∧
      (E16 <<< 10) + r ≤ 0x7C00 ∧ pack F a = (signField F a <<< 15) ||| ((E16 <<< 10) + r) ∧
      (r = 1024 → pack F a = (signField F a <<< 15) ||| ((E16 + 1) <<< 10)) ∧
      (E16 = 30 → r = 1024 → pack F a = (signField F a <<< 15) ||| 0x7C00)

/-- The inference the spec draws in R98: the final fields of every case. The result is the three fields assembled,
they are in range, and its sign bit is the operand's in every case. -/
def Obligations.PackAssembly : Prop :=
  ∀ (F : Format) (a : Nat), IsWide F → a < 2 ^ F.width →
    pack F a < 2 ^ 16 ∧
    pack F a = (signField F a <<< 15) ||| (expField Config.half (pack F a) <<< 10) |||
      sigField Config.half (pack F a) ∧
    signField Config.half (pack F a) = signField F a ∧
    (-14 ≤ unbiasedExp F a → unbiasedExp F a ≤ 15 →
      (expField Config.half (pack F a) : Int) =
        unbiasedExp F a + 15 + (round10 (sigField F a) (F.sigBits - 10) >>> 10 : Nat) ∧
      sigField Config.half (pack F a) = round10 (sigField F a) (F.sigBits - 10) &&& 0x3FF) ∧
    (-24 ≤ unbiasedExp F a → unbiasedExp F a ≤ -15 →
      expField Config.half (pack F a) =
        round10 (2 ^ F.sigBits + sigField F a) (subshift (unbiasedExp F a) F.sigBits) >>> 10 ∧
      sigField Config.half (pack F a) =
        round10 (2 ^ F.sigBits + sigField F a) (subshift (unbiasedExp F a) F.sigBits) &&& 0x3FF) ∧
    (unbiasedExp F a > 15 → expField Config.half (pack F a) = 0x1F ∧
      (sigField Config.half (pack F a) = 0 ∨ sigField Config.half (pack F a) = 0x200)) ∧
    (unbiasedExp F a < -24 → expField Config.half (pack F a) = 0 ∧ sigField Config.half (pack F a) = 0)

/-- What the source itself promises of a packed NaN, for EVERY value of the parameter `NAN16_SIG` (U1): exponent field
0x1F and significand field not 0; and no other operand's result depends on the parameter. -/
def Obligations.PackedNanHoldsForEveryParameter : Prop :=
  ∀ (n : Nat) (F : Format) (a : Nat), 1 ≤ n → n ≤ 0x3FF → IsWide F → a < 2 ^ F.width →
    (classify F a = .nan → expField Config.half (packWith n F a) = 0x1F ∧
      sigField Config.half (packWith n F a) = n ∧ classify Config.half (packWith n F a) = .nan) ∧
    (classify F a ≠ .nan → packWith n F a = pack F a ∧ classify Config.half (pack F a) ≠ .nan)

/-- The inference the spec draws in R101: where the special wide patterns land; the implicit bit is inserted, and the
significand read as a fraction of a normal value, only for wide normal patterns. -/
def Obligations.SpecialWidePatternsLand : Prop :=
  ∀ (F : Format) (a : Nat), IsWide F → a < 2 ^ F.width →
    (classify F a = .zero → pack F a = signField F a <<< 15) ∧
    (classify F a = .subnormal → unbiasedExp F a = -(F.bias : Int) ∧ classDown (unbiasedExp F a) = .tiny ∧
      pack F a = signField F a <<< 15) ∧
    (classify F a = .infinity ∨ classify F a = .nan →
      unbiasedExp F a = F.bias + 1 ∧ classDown (unbiasedExp F a) = .over) ∧
    (classDown (unbiasedExp F a) = .sub ∨ classDown (unbiasedExp F a) = .normal → classify F a = .normal)

/-- The inference the spec draws in R102, the image of the packer: exactly the half patterns that are no NaN and the
two canonical NaNs, each reached by the operand the unpacker makes of it. -/
def Obligations.PackImage : Prop :=
  ∀ (F : Format) (h : Nat), IsWide F → h < 2 ^ 16 →
    ((∃ a < 2 ^ F.width, pack F a = h) ↔ (classify Config.half h ≠ .nan ∨ h = 0x7E00 ∨ h = 0xFE00)) ∧
    ((∃ a < 2 ^ F.width, pack F a = h) → unpack F h < 2 ^ F.width ∧ pack F (unpack F h) = h)

/-- The inference the spec draws in R103: outside the band the packer gives the nearest half value, ties to the even
pattern, magnitudes of `2^16` or more giving infinity (an infinite result counting as `2^16`, log 15); inside it gives
a signed zero although `2^-24` with that sign is nearer. The band in patterns. -/
def Obligations.PackIsNearestOutsideTheBand : Prop :=
  (∀ (F : Format) (a : Nat), IsWide F → a < 2 ^ F.width → classify F a ≠ .nan → ¬InBand F a →
    signField Config.half (pack F a) = signField F a ∧
    (classify F a = .infinity → classify Config.half (pack F a) = .infinity) ∧
    (classify F a ≠ .infinity → 2 ^ 16 ≤ magnitude F a → classify Config.half (pack F a) = .infinity) ∧
    (classify F a ≠ .infinity → magnitude F a < 2 ^ 16 →
      ∀ g < 2 ^ 16, classify Config.half g ≠ .nan →
        |roundingTarget (pack F a) - finiteValue F a| ≤ |roundingTarget g - finiteValue F a| ∧
        (|roundingTarget (pack F a) - finiteValue F a| = |roundingTarget g - finiteValue F a| →
          roundingTarget g ≠ roundingTarget (pack F a) → sigField Config.half (pack F a) % 2 = 0))) ∧
  (∀ (F : Format) (a : Nat), IsWide F → a < 2 ^ F.width → InBand F a →
    pack F a = signField F a <<< 15 ∧ (2 : ℚ) ^ (-25 : ℤ) < magnitude F a ∧ magnitude F a < (2 : ℚ) ^ (-24 : ℤ) ∧
    |roundingTarget ((signField F a <<< 15) ||| 1) - finiteValue F a| <
      |roundingTarget (pack F a) - finiteValue F a|) ∧
  (∀ a < 2 ^ 32, InBand Config.single a ↔
    (0x33000001 ≤ a ∧ a ≤ 0x337FFFFF) ∨ (0xB3000001 ≤ a ∧ a ≤ 0xB37FFFFF)) ∧
  (∀ a < 2 ^ 64, InBand Config.double a ↔
    (0x3E60000000000001 ≤ a ∧ a ≤ 0x3E6FFFFFFFFFFFFF) ∨ (0xBE60000000000001 ≤ a ∧ a ≤ 0xBE6FFFFFFFFFFFFF))

/-- The inference the spec draws in R104: the sign bit passes through and nothing else depends on it. -/
def Obligations.PackSignSymmetry : Prop :=
  ∀ (F : Format) (a : Nat), IsWide F → a < 2 ^ F.width → pack F (a ^^^ signMask F) = pack F a ^^^ 0x8000

/-! ### Unpacker -/

/-- R113: code, pseudocode with its constants, listed corner cases, and the low 13 bits of every result 0. -/
def Obligations.Unpack32Result : Prop :=
  encode .unpack32 = 0x2#4 ∧
  (∀ s : State, exec .unpack32 s = answers s (BitVec.ofNat 64 (Rules.unpack32 (low 16 s.a)))) ∧
  (∀ c ∈ unpack32Corners, Rules.unpack32 c.1 = c.2) ∧
  (∀ h < 2 ^ 16, Rules.unpack32 h % 2 ^ 13 = 0 ∧ Rules.unpack32 h < 2 ^ 32)

/-- R114: code, pseudocode with its constants, listed corner cases, and the low 42 bits of every result 0. -/
def Obligations.Unpack64Result : Prop :=
  encode .unpack64 = 0x3#4 ∧
  (∀ s : State, exec .unpack64 s = answers s (BitVec.ofNat 64 (Rules.unpack64 (low 16 s.a)))) ∧
  (∀ c ∈ unpack64Corners, Rules.unpack64 c.1 = c.2) ∧
  (∀ h < 2 ^ 16, Rules.unpack64 h % 2 ^ 42 = 0 ∧ Rules.unpack64 h < 2 ^ 64)

/-- R108: `LEADPOS(f)` is the largest `p` in 0 .. 9 with `f[p] == 1`, that is `2^p <= f < 2^(p+1)`. -/
def Obligations.LeadposIsTheTopOneBit : Prop :=
  ∀ f : Nat, 1 ≤ f → f ≤ 1023 →
    leadpos f ≤ 9 ∧ f.testBit (leadpos f) = true ∧ (∀ q ≤ 9, f.testBit q = true → q ≤ leadpos f) ∧
    2 ^ leadpos f ≤ f ∧ f < 2 ^ (leadpos f + 1)

/-- R112: every result is its three fields assembled, not overlapping; the low `M - 10` bits of the significand field
are 0; the sign bit is the operand's. -/
def Obligations.UnpackAssembly : Prop :=
  ∀ (F : Format) (h : Nat), IsWide F → h < 2 ^ 16 →
    ∃ we wf : Nat, we < 2 ^ F.expBits ∧ wf < 2 ^ F.sigBits ∧
      unpack F h = (signField Config.half h <<< (F.width - 1)) ||| (we <<< F.sigBits) ||| wf ∧
      unpack F h = signField Config.half h * 2 ^ (F.width - 1) + we * 2 ^ F.sigBits + wf ∧
      wf % 2 ^ (F.sigBits - 10) = 0 ∧ signField F (unpack F h) = signField Config.half h

/-- The inference the spec draws in R115: unpacking is exact for every pattern that is no NaN, a NaN gives a NaN of
its sign, both widths stand for the same value, and the classes of the results. -/
def Obligations.UnpackIsExact : Prop :=
  (∀ (F : Format) (h : Nat), IsWide F → h < 2 ^ 16 →
    (classify Config.half h ≠ .nan → val F (unpack F h) = val Config.half h) ∧
    (classify Config.half h = .nan →
      classify F (unpack F h) = .nan ∧ signField F (unpack F h) = signField Config.half h) ∧
    (classify Config.half h = .zero → classify F (unpack F h) = .zero) ∧
    (classify Config.half h = .subnormal → classify F (unpack F h) = .normal) ∧
    (classify Config.half h = .normal → classify F (unpack F h) = .normal) ∧
    (classify Config.half h = .infinity → classify F (unpack F h) = .infinity)) ∧
  (∀ h < 2 ^ 16, val Config.double (unpack Config.double h) = val Config.single (unpack Config.single h))

/-- The inference the spec draws in R116: unpacking is one-to-one, and its image in patterns. -/
def Obligations.UnpackIsInjectiveWithImage : Prop :=
  ∀ F : Format, IsWide F →
    (∀ h < 2 ^ 16, ∀ g < 2 ^ 16, unpack F h = unpack F g → h = g) ∧
    (∀ u < 2 ^ F.width, (∃ h < 2 ^ 16, unpack F h = u) ↔
      sigField F u % 2 ^ (F.sigBits - 10) = 0 ∧
      ((expField F u = 0 ∧ sigField F u = 0) ∨
        (F.bias - 14 ≤ expField F u ∧ expField F u ≤ F.bias + 15) ∨
        (F.bias - 24 ≤ expField F u ∧ expField F u ≤ F.bias - 15 ∧
          sigField F u % 2 ^ (F.sigBits - (expField F u - (F.bias - 24))) = 0) ∨
        expField F u = 2 ^ F.expBits - 1))

/-! ### Laws over PACK and UNPACK -/

/-- R117: the round trip, for every half pattern and both widths; a NaN comes back as the canonical NaN of its sign;
the 2044 patterns for which it fails. -/
def Obligations.RoundTrip : Prop :=
  ∀ (F : Format) (h : Nat), IsWide F → h < 2 ^ 16 →
    ((classify Config.half h ≠ .nan ∨ h = 0x7E00 ∨ h = 0xFE00) → pack F (unpack F h) = h) ∧
    (classify Config.half h = .nan → pack F (unpack F h) = (h &&& 0x8000) ||| 0x7E00) ∧
    (pack F (unpack F h) ≠ h ↔
      (0x7C01 ≤ h ∧ h ≤ 0x7DFF) ∨ (0x7E01 ≤ h ∧ h ≤ 0x7FFF) ∨ (0xFC01 ≤ h ∧ h ≤ 0xFDFF) ∨ (0xFE01 ≤ h ∧ h ≤ 0xFFFF))

/-- The round trip on the machine: a run of two lines, UNPACK of `h` and PACK of `%1` in one width, from any state
whose host has read nothing yet, answers a next state with the two outcomes and `h` on `Y` (or the canonical NaN). The
run is held in the state by the model's choice (log 2), and `%1` reaches `A` as the used low bits of the first `Y`, zeros
above (log 7). -/
def Obligations.RoundTripRun : Prop :=
  ∀ (s : State) (h : Bits16) (wide : Bool), s.outcomes = [] →
    s.pending = [{ op := encode (if wide then .unpack64 else .unpack32), operand := .value (h.setWidth 64) },
      { op := encode (if wide then .pack64 else .pack32), operand := .result 1 }] →
    ∃ t : State, Host.Core.run core 2 s = .next t ∧ t.pending = [] ∧ t.ill = 0 ∧ t.outcomes.length = 2 ∧
      t.y.toNat = (if classify Config.half h.toNat = .nan then (h.toNat &&& 0x8000) ||| 0x7E00 else h.toNat)

/-- The inference the spec draws in R119: packing is idempotent through unpacking, and exact on what unpacking made of
a pattern that is no NaN. -/
def Obligations.PackUnpackIdempotence : Prop :=
  ∀ F : Format, IsWide F →
    (∀ a < 2 ^ F.width, pack F (unpack F (pack F a)) = pack F a) ∧
    (∀ h < 2 ^ 16, classify Config.half h ≠ .nan → unpack F (pack F (unpack F h)) = unpack F h)

/-- R120: the source's boundary properties on the machine's own functions, with "65520 or larger" for every larger
finite operand and for infinity, and every NaN. -/
def Obligations.SourceBoundaryProperties : Prop :=
  (pack Config.single 0x00000000 = 0x0000 ∧ pack Config.single 0x80000000 = 0x8000 ∧
    pack Config.double 0x0000000000000000 = 0x0000 ∧ pack Config.double 0x8000000000000000 = 0x8000) ∧
  (pack Config.single 0x477FE000 = 0x7BFF ∧ pack Config.double 0x40EFFC0000000000 = 0x7BFF) ∧
  (∀ a : Nat, 0x477FF000 ≤ a → a ≤ 0x7F800000 → pack Config.single a = 0x7C00) ∧
  (∀ a : Nat, 0x40EFFE0000000000 ≤ a → a ≤ 0x7FF0000000000000 → pack Config.double a = 0x7C00) ∧
  (unpack Config.single 0x0001 = 0x33800000 ∧ unpack Config.double 0x0001 = 0x3E70000000000000) ∧
  (pack Config.single 0x33000000 = 0x0000 ∧ pack Config.double 0x3E60000000000000 = 0x0000) ∧
  (pack Config.single 0x7F800000 = 0x7C00 ∧ pack Config.single 0xFF800000 = 0xFC00 ∧
    pack Config.double 0x7FF0000000000000 = 0x7C00 ∧ pack Config.double 0xFFF0000000000000 = 0xFC00) ∧
  (∀ (F : Format) (a : Nat), IsWide F → a < 2 ^ F.width → classify F a = .nan →
    pack F a = 0x7E00 ∨ pack F a = 0xFE00) ∧
  (pack Config.single 0x3F800000 = 0x3C00 ∧ unpack Config.single 0x3C00 = 0x3F800000 ∧
    pack Config.double 0x3FF0000000000000 = 0x3C00 ∧ unpack Config.double 0x3C00 = 0x3FF0000000000000) ∧
  (pack Config.single 0xC0200000 = 0xC100 ∧ unpack Config.single 0xC100 = 0xC0200000 ∧
    pack Config.double 0xC004000000000000 = 0xC100 ∧ unpack Config.double 0xC100 = 0xC004000000000000)

/-- The inference the spec draws in R121: what PACK and UNPACK do to the classes; no operation turns a NaN into a
non-NaN or the other way. -/
def Obligations.ClassPreservation : Prop :=
  ∀ F : Format, IsWide F →
    (∀ a < 2 ^ F.width,
      signField Config.half (pack F a) = signField F a ∧
      (classify F a = .zero → classify Config.half (pack F a) = .zero) ∧
      (classify F a = .infinity → classify Config.half (pack F a) = .infinity) ∧
      (classify F a = .nan ↔ classify Config.half (pack F a) = .nan) ∧
      (classify F a = .subnormal → classify Config.half (pack F a) = .zero)) ∧
    (∀ h < 2 ^ 16,
      signField F (unpack F h) = signField Config.half h ∧
      (classify Config.half h = .zero ↔ classify F (unpack F h) = .zero) ∧
      (classify Config.half h = .infinity ↔ classify F (unpack F h) = .infinity) ∧
      (classify Config.half h = .nan ↔ classify F (unpack F h) = .nan) ∧
      (classify Config.half h = .subnormal ∨ classify Config.half h = .normal ↔ classify F (unpack F h) = .normal))

/-- The inference the spec draws in R122: the error of PACK on a wide normal operand is at most half a unit in the
last place, reached only at a tie; above the range the result is infinity; below it a zero, whose error is the
operand's magnitude, above `2^-25` exactly in the band. -/
def Obligations.PackAccuracy : Prop :=
  ∀ (F : Format) (a : Nat), IsWide F → a < 2 ^ F.width → classify F a = .normal →
    (-24 ≤ unbiasedExp F a → unbiasedExp F a ≤ 15 → classify Config.half (pack F a) ≠ .infinity →
      |finiteValue Config.half (pack F a) - finiteValue F a| ≤ (2 : ℚ) ^ (max (unbiasedExp F a) (-14) - 11) ∧
      (|finiteValue Config.half (pack F a) - finiteValue F a| = (2 : ℚ) ^ (max (unbiasedExp F a) (-14) - 11) →
        (-14 ≤ unbiasedExp F a → roundGuard (sigField F a) (F.sigBits - 10) = 1 ∧
          roundSticky (sigField F a) (F.sigBits - 10) = 0) ∧
        (unbiasedExp F a < -14 →
          roundGuard (2 ^ F.sigBits + sigField F a) (subshift (unbiasedExp F a) F.sigBits) = 1 ∧
          roundSticky (2 ^ F.sigBits + sigField F a) (subshift (unbiasedExp F a) F.sigBits) = 0))) ∧
    (15 < unbiasedExp F a → classify Config.half (pack F a) = .infinity) ∧
    (unbiasedExp F a < -24 → classify Config.half (pack F a) = .zero ∧ |finiteValue F a| < (2 : ℚ) ^ (-24 : ℤ) ∧
      |finiteValue Config.half (pack F a) - finiteValue F a| = |finiteValue F a| ∧
      ((2 : ℚ) ^ (-25 : ℤ) < |finiteValue F a| ↔ InBand F a))

/-- The inference the spec draws in R123: PACK is monotone on the values of non-NaN patterns, `-0` below `+0`; UNPACK
strictly so. -/
def Obligations.PackIsMonotone : Prop :=
  ∀ F : Format, IsWide F →
    (∀ a₁ < 2 ^ F.width, ∀ a₂ < 2 ^ F.width, classify F a₁ ≠ .nan → classify F a₂ ≠ .nan →
      (val F a₁).notAbove (val F a₂) → (val Config.half (pack F a₁)).notAbove (val Config.half (pack F a₂))) ∧
    (∀ h₁ < 2 ^ 16, ∀ h₂ < 2 ^ 16, classify Config.half h₁ ≠ .nan → classify Config.half h₂ ≠ .nan → h₁ ≠ h₂ →
      (val Config.half h₁).notAbove (val Config.half h₂) →
      (val F (unpack F h₁)).notAbove (val F (unpack F h₂)) ∧
      ¬(val F (unpack F h₂)).notAbove (val F (unpack F h₁)))

/-- The inference the spec draws in R124: a 32-bit and a 64-bit pattern with the same value and sign pack to the same
half pattern; NaNs of one sign too; and the two unpacks of one pattern have equal values. -/
def Obligations.WidthsAgree : Prop :=
  (∀ a₃₂ < 2 ^ 32, ∀ a₆₄ < 2 ^ 64, classify Config.single a₃₂ ≠ .nan → classify Config.double a₆₄ ≠ .nan →
    val Config.single a₃₂ = val Config.double a₆₄ → pack Config.single a₃₂ = pack Config.double a₆₄) ∧
  (∀ a₃₂ < 2 ^ 32, ∀ a₆₄ < 2 ^ 64, classify Config.single a₃₂ = .nan → classify Config.double a₆₄ = .nan →
    signField Config.single a₃₂ = signField Config.double a₆₄ → pack Config.single a₃₂ = pack Config.double a₆₄) ∧
  (∀ h < 2 ^ 16, val Config.double (unpack Config.double h) = val Config.single (unpack Config.single h))

/-! ### Runs -/

/-- Any sequence of operations gives each its stand-alone result: a run whose operands are values has, after the
outcomes already read, the block's outputs line by line, reserved codes included (R41, R150; a run is D16's, see log
2). -/
def Obligations.LinesGiveStandAloneResults : Prop :=
  ∀ (done : List Outputs) (ps : List (OpCode × Word)),
    blockRun done (ps.map valueLine) = some (done ++ ps.map (fun p => outputs p.1 p.2))

/-- The meaning of a run, the spec's own decision D16 (R153; log 1, log 2): stepping the machine through the run
ahead. It ends in a next state exactly when every line has an operand and no line is reserved, with the list of (`Y`,
`ILL`) pairs the block gives as its outcome; it ends in the fault exactly at a reserved line, all lines before it being
defined and having their outcomes. Three clauses are the model's: a step stops at a reserved line, where R153 goes on
(log 5), before it looks at that line's operand (log 6); and a line with no operand ends the run without a next state
(log 8). -/
def Obligations.RunOutcomeIsTheBlocks : Prop :=
  ∀ s : State,
    (∀ t : State, Host.Core.run core s.pending.length s = .next t ↔
      (∀ l ∈ s.pending, l.op.toNat < 10) ∧ t.pending = [] ∧ blockRun s.outcomes s.pending = some t.outcomes ∧
        (s.pending = [] → t = s) ∧
        (s.pending ≠ [] → (∃ l, s.pending.getLast? = some l ∧ t.op = l.op ∧
            resolve t.outcomes.dropLast l = some t.a) ∧ outputs t.op t.a = { y := t.y, ill := t.ill })) ∧
    (∀ r : Fault, Host.Core.run core s.pending.length s = .fault r ↔
      ∃ (before after : List Line) (l : Line), s.pending = before ++ l :: after ∧ 10 ≤ l.op.toNat ∧
        (∀ k ∈ before, k.op.toNat < 10) ∧ ∃ outs, blockRun s.outcomes before = some outs)

/-- A well-formed run never goes wrong, however many steps are taken (the host holds the last pair when the run is
over): every step answers a next state with `ILL = 0`. What a safe state is, is the model's choice (log 2, log 4, log 8). -/
def Obligations.SafeRunsNeverStop : Prop :=
  ∀ (s : State) (k : Nat), Safe s →
    ∃ t : State, Host.Core.run core k s = .next t ∧ Safe t ∧ t.outcomes.length = s.outcomes.length + k ∧
      t.pending = s.pending.drop k

/-- Two facts every step keeps, from every state in which they hold: no outcome read so far has `ILL = 1`, and the
output ports carry the block's function of the input ports (R23). Ports and outcomes in the state are the model's choice
(log 1, log 2). The first fact is kept because a step stops at a reserved `OP`, the fault of R130 (log 5); the block of
R153 goes on there, with `ILL = 1` as that line's outcome. -/
def Obligations.StepKeepsRunAndPortsInOrder : Prop :=
  ∀ s t : State, NoFaultRecorded s ∧ PortsAgree s → step s = .next t → NoFaultRecorded t ∧ PortsAgree t

/-- The reset state of the model is safe and its ports agree. Its values are the model's choice (log 3): the spec
gives no reset (R33, R145). -/
def Obligations.ResetIsSafeAndPortsAgree : Prop :=
  Safe State.reset ∧ NoFaultRecorded State.reset ∧ PortsAgree State.reset

/-- Reading may be repeated: while the host holds a pair and presents nothing new, a further step leaves all four
ports as they are (R38, R143; that such a step is taken, and its outcome recorded again, is the model's choice, log
4; a reserved pair answers no next state, log 5). -/
def Obligations.HoldingThePairChangesNoPort : Prop :=
  ∀ s t : State, step s = .next t → t.pending = [] →
    ∃ u : State, step t = .next u ∧ u.op = t.op ∧ u.a = t.a ∧ u.y = t.y ∧ u.ill = t.ill ∧ u.pending = []
end

