-- ==== Sys2Proof/Laws/Decode.lean ====
section
/-! SUPPORT. What decoding an operation select can give. -/

namespace Sys2Proof

/-- Whether decoding gives an operation, code by code. -/
theorem decode_isOk (op : OpCode) : (decode op).isOk = decide (op.toNat < 10) := by
  revert op
  decide

/-- The decoder's two outcomes, by the number of the code. -/
theorem decode_cases (op : OpCode) :
    (op.toNat < 10 ∧ ∃ i, decode op = .ok i) ∨
    (10 ≤ op.toNat ∧ decode op = .error .reservedOperationSelect) := by
  have hk := decode_isOk op
  cases hd : decode op with
  | ok i =>
    rw [hd] at hk
    exact .inl ⟨by simpa [Except.isOk, Except.toBool] using hk, i, rfl⟩
  | error e =>
    rw [hd] at hk
    exact .inr ⟨by simpa [Except.isOk, Except.toBool] using hk, by cases e; rfl⟩

/-- `opDefined` says what its name says. -/
theorem opDefined_iff (op : OpCode) : opDefined op = true ↔ op.toNat < 10 := by
  simp [opDefined]

/-- The table's rows exclude each other. -/
theorem opcodeMap_rows_exclude :
    opcodeMap.Pairwise (fun r q => ∀ op : OpCode, ¬(rowSelects op r = true ∧ rowSelects op q = true)) := by
  decide

end Sys2Proof
end

