-- ==== Sys2Proof/Laws/State.lean ====
section
/-! SUPPORT. One lemma per field per update of State (`deliver`, `present`, `withFetchWord`), and what `nextLine` is. -/

namespace Sys2Proof.Machine

@[simp] theorem deliver_op (v : Word) (s : State) : (deliver v s).op = s.op := rfl
@[simp] theorem deliver_a (v : Word) (s : State) : (deliver v s).a = s.a := rfl
@[simp] theorem deliver_y (v : Word) (s : State) : (deliver v s).y = v := rfl
@[simp] theorem deliver_ill (v : Word) (s : State) : (deliver v s).ill = 0 := rfl
@[simp] theorem deliver_pending (v : Word) (s : State) : (deliver v s).pending = s.pending := rfl
@[simp] theorem deliver_outcomes (v : Word) (s : State) :
    (deliver v s).outcomes = s.outcomes ++ [{ y := v, ill := 0 }] := rfl

@[simp] theorem present_op (op : OpCode) (a : Word) (s : State) : (present op a s).op = op := rfl
@[simp] theorem present_a (op : OpCode) (a : Word) (s : State) : (present op a s).a = a := rfl
@[simp] theorem present_y (op : OpCode) (a : Word) (s : State) : (present op a s).y = s.y := rfl
@[simp] theorem present_ill (op : OpCode) (a : Word) (s : State) : (present op a s).ill = s.ill := rfl
@[simp] theorem present_pending (op : OpCode) (a : Word) (s : State) :
    (present op a s).pending = s.pending.tail := rfl
@[simp] theorem present_outcomes (op : OpCode) (a : Word) (s : State) : (present op a s).outcomes = s.outcomes := rfl

@[simp] theorem withFetchWord_op (s : State) (n w : Nat) : (s.withFetchWord n w).op = s.op := rfl
@[simp] theorem withFetchWord_a (s : State) (n w : Nat) : (s.withFetchWord n w).a = s.a := rfl
@[simp] theorem withFetchWord_y (s : State) (n w : Nat) : (s.withFetchWord n w).y = s.y := rfl
@[simp] theorem withFetchWord_ill (s : State) (n w : Nat) : (s.withFetchWord n w).ill = s.ill := rfl
@[simp] theorem withFetchWord_pending (s : State) (n w : Nat) :
    (s.withFetchWord n w).pending = { op := opOfTableWord n w, operand := .value s.a } :: s.pending := rfl
@[simp] theorem withFetchWord_outcomes (s : State) (n w : Nat) : (s.withFetchWord n w).outcomes = s.outcomes := rfl

theorem nextLine_of_nil {s : State} (h : s.pending = []) :
    nextLine s = { op := s.op, operand := .value s.a } := by
  simp [nextLine, h]

theorem nextLine_of_cons {s : State} {l : Line} {ls : List Line} (h : s.pending = l :: ls) : nextLine s = l := by
  simp [nextLine, h]

/-- Holding the pair on the ports changes nothing (log 4). -/
theorem present_held {s : State} (h : s.pending = []) : present s.op s.a s = s := by
  cases s
  simp_all [present]

end Sys2Proof.Machine
end

