-- ==== Sys2Proof/Laws/Exec.lean ====
section
/-! SUPPORT. Everything an operation can do: it delivers one value, which depends on `A` alone. -/

namespace Sys2Proof.Machine

/-- Every operation answers a next state, with a value that is a function of the level on `A`. -/
theorem exec_delivers (i : Instr) : ∃ f : Word → Word, ∀ s : State, exec i s = .next (deliver (f s.a) s) := by
  cases i
  case pack32 => exact ⟨fun a => zext64 (pack Config.single (operand32 a).toNat), fun _ => rfl⟩
  case pack64 => exact ⟨fun a => zext64 (pack Config.double (operand64 a).toNat), fun _ => rfl⟩
  case unpack32 => exact ⟨fun a => zext64 (unpack Config.single (operand16 a).toNat), fun _ => rfl⟩
  case unpack64 => exact ⟨fun a => zext64 (unpack Config.double (operand16 a).toNat), fun _ => rfl⟩
  case getexp32 => exact ⟨fun a => sext64 (unbiasedExp Config.single (operand32 a).toNat), fun _ => rfl⟩
  case getexp64 => exact ⟨fun a => sext64 (unbiasedExp Config.double (operand64 a).toNat), fun _ => rfl⟩
  case getsign32 => exact ⟨fun a => zext64 (signField Config.single (operand32 a).toNat), fun _ => rfl⟩
  case getsign64 => exact ⟨fun a => zext64 (signField Config.double (operand64 a).toNat), fun _ => rfl⟩
  case getsig32 => exact ⟨fun a => zext64 (sigField Config.single (operand32 a).toNat), fun _ => rfl⟩
  case getsig64 => exact ⟨fun a => zext64 (sigField Config.double (operand64 a).toNat), fun _ => rfl⟩

end Sys2Proof.Machine
end

