-- ==== Sys2Proof/Laws/Operands.lean ====
section
/-! SUPPORT. The operand lanes as remainders, and what resolving an operand can give. -/

namespace Sys2Proof.Machine

theorem operand16_toNat (a : Word) : (operand16 a).toNat = a.toNat % 2 ^ 16 := by
  simp [operand16]

theorem operand32_toNat (a : Word) : (operand32 a).toNat = a.toNat % 2 ^ 32 := by
  simp [operand32]

theorem operand64_toNat (a : Word) : (operand64 a).toNat = a.toNat := rfl

@[simp] theorem resolve_value (done : List Outputs) (op : OpCode) (a : Word) :
    resolve done { op := op, operand := .value a } = some a := rfl

/-- An operand is a value of the line, or the used low bits of an earlier result that `ILL` did not mark. -/
theorem resolve_cases {done : List Outputs} {l : Line} {a : Word} (h : resolve done l = some a) :
    l.operand = .value a ∨
    ∃ n o, l.operand = .result (n + 1) ∧ done[n]? = some o ∧ o.ill = 0 ∧ a = usedLow l.op o.y := by
  unfold resolve at h
  split at h
  · exact .inl (by simp_all)
  · simp at h
  · rename_i n hn
    split at h
    · rename_i o ho
      split at h
      · exact .inr ⟨n, o, hn, ho, ‹_›, by simpa using h.symm⟩
      · simp at h
    · simp at h

/-- There is no operand exactly when `%n` names no line that has run, or one that `ILL` marked. -/
theorem resolve_eq_none {done : List Outputs} {l : Line} (h : resolve done l = none) :
    l.operand = .result 0 ∨
    ∃ n, l.operand = .result (n + 1) ∧ (done[n]? = none ∨ ∃ o, done[n]? = some o ∧ o.ill ≠ 0) := by
  unfold resolve at h
  split at h
  · simp at h
  · exact .inl ‹_›
  · rename_i n hn
    refine .inr ⟨n, hn, ?_⟩
    split at h
    · rename_i o ho
      exact .inr ⟨o, ho, by simpa using h⟩
    · exact .inl ‹_›

end Sys2Proof.Machine
end

