-- ==== Sys2Proof/Laws/Ops.lean ====
section
/-! SUPPORT. The constants of the formats in numbers, and the bit-field helpers as division and remainder. -/

namespace Sys2Proof

@[simp] theorem half_expBits : Config.half.expBits = 5 := rfl
@[simp] theorem half_sigBits : Config.half.sigBits = 10 := rfl
@[simp] theorem half_bias : Config.half.bias = 15 := rfl
@[simp] theorem half_width : Config.half.width = 16 := rfl
@[simp] theorem half_expFieldMax : Config.half.expFieldMax = 31 := rfl
@[simp] theorem single_expBits : Config.single.expBits = 8 := rfl
@[simp] theorem single_sigBits : Config.single.sigBits = 23 := rfl
@[simp] theorem single_bias : Config.single.bias = 127 := rfl
@[simp] theorem single_width : Config.single.width = 32 := rfl
@[simp] theorem single_expFieldMax : Config.single.expFieldMax = 255 := rfl
@[simp] theorem double_expBits : Config.double.expBits = 11 := rfl
@[simp] theorem double_sigBits : Config.double.sigBits = 52 := rfl
@[simp] theorem double_bias : Config.double.bias = 1023 := rfl
@[simp] theorem double_width : Config.double.width = 64 := rfl
@[simp] theorem double_expFieldMax : Config.double.expFieldMax = 2047 := rfl

namespace Machine

theorem signField_eq_div_mod (F : Format) (a : Nat) : signField F a = a / 2 ^ (F.expBits + F.sigBits) % 2 := by
  unfold signField signMask signShift
  rw [Nat.shiftRight_and_distrib, Nat.shiftRight_eq_div_pow, Nat.shiftRight_eq_div_pow,
    Nat.div_self (Nat.two_pow_pos _), Nat.and_one_is_mod]

theorem signField_eq_div_pow_div (F : Format) (a : Nat) :
    signField F a = a / 2 ^ F.sigBits / 2 ^ F.expBits % 2 := by
  rw [signField_eq_div_mod, Nat.div_div_eq_div_mul, ← pow_add, Nat.add_comm]

theorem expField_eq_div_mod (F : Format) (a : Nat) : expField F a = a / 2 ^ F.sigBits % 2 ^ F.expBits := by
  unfold expField Format.expFieldMax
  rw [Nat.and_two_pow_sub_one_eq_mod, Nat.shiftRight_eq_div_pow]

theorem sigField_eq_mod (F : Format) (a : Nat) : sigField F a = a % 2 ^ F.sigBits := by
  unfold sigField sigMask
  exact Nat.and_two_pow_sub_one_eq_mod _ _

theorem signField_le_one (F : Format) (a : Nat) : signField F a ≤ 1 := by
  rw [signField_eq_div_mod]
  omega

theorem expField_lt (F : Format) (a : Nat) : expField F a < 2 ^ F.expBits := by
  rw [expField_eq_div_mod]
  exact Nat.mod_lt _ (Nat.two_pow_pos _)

theorem sigField_lt (F : Format) (a : Nat) : sigField F a < 2 ^ F.sigBits := by
  rw [sigField_eq_mod]
  exact Nat.mod_lt _ (Nat.two_pow_pos _)

/-- With the significand and exponent fields in range, assembling three fields is a sum. -/
theorem assemble_eq_add (F : Format) (s ef f : Nat) (he : ef < 2 ^ F.expBits) (hf : f < 2 ^ F.sigBits) :
    assemble F s ef f = s * 2 ^ (F.expBits + F.sigBits) + ef * 2 ^ F.sigBits + f := by
  have h1 : (s <<< F.expBits ||| ef) <<< F.sigBits = s <<< signShift F ||| ef <<< F.sigBits := by
    rw [Nat.shiftLeft_or_distrib, ← Nat.shiftLeft_add]
    rfl
  unfold assemble
  rw [← h1, ← Nat.shiftLeft_add_eq_or_of_lt he, ← Nat.shiftLeft_add_eq_or_of_lt hf]
  simp only [Nat.shiftLeft_eq, pow_add]
  ring

/-- The fields of a sum of fields in range. -/
theorem fields_of_sum (F : Format) (s ef f : Nat) (hs : s ≤ 1) (he : ef < 2 ^ F.expBits) (hf : f < 2 ^ F.sigBits) :
    signField F (s * 2 ^ (F.expBits + F.sigBits) + ef * 2 ^ F.sigBits + f) = s ∧
    expField F (s * 2 ^ (F.expBits + F.sigBits) + ef * 2 ^ F.sigBits + f) = ef ∧
    sigField F (s * 2 ^ (F.expBits + F.sigBits) + ef * 2 ^ F.sigBits + f) = f := by
  have hpos : 0 < 2 ^ F.sigBits := Nat.two_pow_pos _
  have hsum : s * 2 ^ (F.expBits + F.sigBits) + ef * 2 ^ F.sigBits + f =
      (s * 2 ^ F.expBits + ef) * 2 ^ F.sigBits + f := by
    rw [pow_add]
    ring
  have hdiv : (s * 2 ^ (F.expBits + F.sigBits) + ef * 2 ^ F.sigBits + f) / 2 ^ F.sigBits =
      s * 2 ^ F.expBits + ef := by
    rw [hsum, Nat.mul_comm _ (2 ^ F.sigBits), Nat.mul_add_div hpos, Nat.div_eq_of_lt hf, Nat.add_zero]
  refine ⟨?_, ?_, ?_⟩
  · rw [signField_eq_div_pow_div, hdiv, Nat.mul_comm s, Nat.mul_add_div (Nat.two_pow_pos _), Nat.div_eq_of_lt he]
    omega
  · rw [expField_eq_div_mod, hdiv, Nat.mul_comm s, Nat.mul_add_mod, Nat.mod_eq_of_lt he]
  · rw [sigField_eq_mod, hsum, Nat.mul_comm _ (2 ^ F.sigBits), Nat.mul_add_mod, Nat.mod_eq_of_lt hf]

/-- A pattern in range is the sum of its fields. -/
theorem eq_sum_of_fields (F : Format) (a : Nat) (h : a < 2 ^ F.width) :
    a = signField F a * 2 ^ (F.expBits + F.sigBits) + expField F a * 2 ^ F.sigBits + sigField F a := by
  have hw : (2 : Nat) ^ F.width = 2 * 2 ^ (F.sigBits + F.expBits) := by
    rw [Format.width, Nat.add_assoc, pow_add, Nat.add_comm F.expBits]
    rfl
  have hlt : a / 2 ^ F.sigBits / 2 ^ F.expBits < 2 := by
    rw [Nat.div_div_eq_div_mul, ← pow_add, Nat.div_lt_iff_lt_mul (Nat.two_pow_pos _), ← hw]
    exact h
  rw [signField_eq_div_pow_div, Nat.mod_eq_of_lt hlt, expField_eq_div_mod, sigField_eq_mod, pow_add]
  calc a = 2 ^ F.sigBits * (a / 2 ^ F.sigBits) + a % 2 ^ F.sigBits := (Nat.div_add_mod _ _).symm
    _ = 2 ^ F.sigBits * (2 ^ F.expBits * (a / 2 ^ F.sigBits / 2 ^ F.expBits) +
          a / 2 ^ F.sigBits % 2 ^ F.expBits) + a % 2 ^ F.sigBits := by rw [Nat.div_add_mod (a / 2 ^ F.sigBits)]
    _ = _ := by ring

theorem clamp_eq_max_min (v lo hi : Int) (h : lo ≤ hi) : clamp v lo hi = max lo (min hi v) := by
  unfold clamp
  split
  · omega
  · split <;> omega

theorem zext64_toNat {v : Nat} (h : v < 2 ^ 64) : (zext64 v).toNat = v := by
  rw [zext64, BitVec.toNat_ofNat, Nat.mod_eq_of_lt h]

end Machine

end Sys2Proof
end

