-- ==== Sys2Proof/Laws/Packer.lean ====
section
/-! SUPPORT. The five cases of the packer (42_packer.md R91), each with its condition, and the class conditions as
inequalities. -/

namespace Sys2Proof.Machine

theorem emax16_eq : Config.emax16 = 15 := rfl
theorem emin16_eq : Config.emin16 = -14 := rfl
theorem esub16_eq : Config.esub16 = -24 := rfl

theorem classDown_over {e : Int} (h : 15 < e) : classDown e = .over :=
  if_pos (show e > Config.emax16 from h)

theorem classDown_normal {e : Int} (h₁ : -14 ≤ e) (h₂ : e ≤ 15) : classDown e = .normal := by
  rw [classDown, if_neg (by rw [emax16_eq]; omega), if_pos (by rw [emin16_eq]; omega)]

theorem classDown_sub {e : Int} (h₁ : -24 ≤ e) (h₂ : e ≤ -15) : classDown e = .sub := by
  rw [classDown, if_neg (by rw [emax16_eq]; omega), if_neg (by rw [emin16_eq]; omega),
    if_pos (by rw [esub16_eq]; omega)]

theorem classDown_tiny {e : Int} (h : e < -24) : classDown e = .tiny := by
  rw [classDown, if_neg (by rw [emax16_eq]; omega), if_neg (by rw [emin16_eq]; omega),
    if_neg (by rw [esub16_eq]; omega)]

theorem packWith_zero {n : Nat} {F : Format} {a : Nat} (he : expField F a = 0) (hf : sigField F a = 0) :
    packWith n F a = packSign (signField F a) := by
  simp [packWith, he, hf]

theorem packWith_over {n : Nat} {F : Format} {a : Nat} (hz : ¬(expField F a = 0 ∧ sigField F a = 0))
    (h : 15 < unbiasedExp F a) :
    packWith n F a = packOver n F (signField F a) (expField F a) (sigField F a) := by
  simp only [packWith, if_neg hz, classDown_over h]

theorem packWith_sub {n : Nat} {F : Format} {a : Nat} (hz : ¬(expField F a = 0 ∧ sigField F a = 0))
    (h₁ : -24 ≤ unbiasedExp F a) (h₂ : unbiasedExp F a ≤ -15) :
    packWith n F a = packSub F (signField F a) (unbiasedExp F a) (sigField F a) := by
  simp only [packWith, if_neg hz, classDown_sub h₁ h₂]

theorem packWith_tiny {n : Nat} {F : Format} {a : Nat} (h : unbiasedExp F a < -24) :
    packWith n F a = packSign (signField F a) := by
  simp only [packWith, classDown_tiny h, ite_self]

theorem packWith_normal {n : Nat} {F : Format} {a : Nat} (hz : ¬(expField F a = 0 ∧ sigField F a = 0))
    (h₁ : -14 ≤ unbiasedExp F a) (h₂ : unbiasedExp F a ≤ 15) :
    packWith n F a = packNormal F (signField F a) (unbiasedExp F a) (sigField F a) := by
  simp only [packWith, if_neg hz, classDown_normal h₁ h₂]

end Sys2Proof.Machine
end

