-- ==== Sys2Proof/Laws/PerInstr.lean ====
section
/-! SUPPORT. Families of statements about every instruction, one lemma per constructor. -/

namespace Sys2Proof.Laws.EncodingFields

/-- The code of an operation has its function in `OP[3:1]`, at most 4, and its width in `OP[0]` (30_encoding.md R49 to
R51). -/
def Statement (i : Instr) : Prop :=
  (encode i).toNat = 2 * (fnCode i).toNat + (wideBit i).toNat ∧ (fnCode i).toNat ≤ 4

theorem pack32 : Statement .pack32 := ⟨rfl, by decide⟩
theorem pack64 : Statement .pack64 := ⟨rfl, by decide⟩
theorem unpack32 : Statement .unpack32 := ⟨rfl, by decide⟩
theorem unpack64 : Statement .unpack64 := ⟨rfl, by decide⟩
theorem getexp32 : Statement .getexp32 := ⟨rfl, by decide⟩
theorem getexp64 : Statement .getexp64 := ⟨rfl, by decide⟩
theorem getsign32 : Statement .getsign32 := ⟨rfl, by decide⟩
theorem getsign64 : Statement .getsign64 := ⟨rfl, by decide⟩
theorem getsig32 : Statement .getsig32 := ⟨rfl, by decide⟩
theorem getsig64 : Statement .getsig64 := ⟨rfl, by decide⟩

end Sys2Proof.Laws.EncodingFields
end

