-- ==== Sys2Proof/Laws/Rounding.lean ====
section
/-! SUPPORT. The signals of the rounding unit as division and remainder. -/

namespace Sys2Proof.Machine

theorem roundKept_eq_div (v sh : Nat) : roundKept v sh = v / 2 ^ sh := Nat.shiftRight_eq_div_pow _ _

theorem roundGuard_eq (v sh : Nat) : roundGuard v sh = v / 2 ^ (sh - 1) % 2 := by
  rw [roundGuard, Nat.shiftRight_eq_div_pow, Nat.and_one_is_mod]

theorem roundSticky_eq (v sh : Nat) : roundSticky v sh = if v % 2 ^ (sh - 1) ≠ 0 then 1 else 0 := by
  rw [roundSticky, Nat.and_two_pow_sub_one_eq_mod]

theorem roundLsb_eq (v sh : Nat) : roundLsb v sh = v / 2 ^ sh % 2 := by
  rw [roundLsb, roundKept_eq_div, Nat.and_one_is_mod]

theorem roundInc_le_one (v sh : Nat) : roundInc v sh ≤ 1 := by
  unfold roundInc
  refine le_trans Nat.and_le_left ?_
  rw [roundGuard_eq]
  omega

end Sys2Proof.Machine
end

