-- ==== Sys2Proof/Laws/Step.lean ====
section
/-! SUPPORT. Everything a step can do, said once; and a run taken apart at its first step. -/

namespace Sys2Proof.Machine

/-- A step runs the decoded operation of the next line on its operand. -/
theorem step_of_decode {s : State} {i : Instr} {a : Word} (hd : decode (nextLine s).op = .ok i)
    (hr : resolve s.outcomes (nextLine s) = some a) : step s = exec i (present (nextLine s).op a s) := by
  simp [step, hd, hr]

theorem step_of_reserved {s : State} (h : decode (nextLine s).op = .error .reservedOperationSelect) :
    step s = .fault .reservedOperationSelect := by
  simp [step, h]

theorem step_of_unresolved {s : State} {i : Instr} (hd : decode (nextLine s).op = .ok i)
    (hr : resolve s.outcomes (nextLine s) = none) : step s = .refused .operandNotProduced := by
  simp [step, hd, hr]

/-- The three outcomes of a step, each with all its conditions. -/
theorem step_cases (s : State) :
    (10 ≤ (nextLine s).op.toNat ∧ decode (nextLine s).op = .error .reservedOperationSelect ∧
      step s = .fault .reservedOperationSelect) ∨
    (∃ i, (nextLine s).op.toNat < 10 ∧ decode (nextLine s).op = .ok i ∧
      resolve s.outcomes (nextLine s) = none ∧ step s = .refused .operandNotProduced) ∨
    (∃ i a, (nextLine s).op.toNat < 10 ∧ decode (nextLine s).op = .ok i ∧
      resolve s.outcomes (nextLine s) = some a ∧ step s = exec i (present (nextLine s).op a s)) := by
  obtain ⟨hlt, i, hd⟩ | ⟨hge, hd⟩ := decode_cases (nextLine s).op
  · cases hr : resolve s.outcomes (nextLine s) with
    | none => exact .inr (.inl ⟨i, hlt, hd, rfl, step_of_unresolved hd hr⟩)
    | some a => exact .inr (.inr ⟨i, a, hlt, hd, rfl, step_of_decode hd hr⟩)
  · exact .inl ⟨hge, hd, step_of_reserved hd⟩

/-- If a step answers `t`, then `t` is the state with the next line presented and one value delivered. -/
theorem step_next {s t : State} (h : step s = .next t) :
    ∃ i a v, (nextLine s).op.toNat < 10 ∧ decode (nextLine s).op = .ok i ∧
      resolve s.outcomes (nextLine s) = some a ∧ exec i (present (nextLine s).op a s) = .next t ∧
      t = deliver v (present (nextLine s).op a s) := by
  obtain ⟨-, -, hs⟩ | ⟨i, -, -, -, hs⟩ | ⟨i, a, hlt, hd, hr, hs⟩ := step_cases s
  · simp [hs] at h
  · simp [hs] at h
  · obtain ⟨f, hf⟩ := exec_delivers i
    refine ⟨i, a, f a, hlt, hd, hr, by rw [← hs, h], ?_⟩
    rw [hs, hf] at h
    simpa using h.symm

/-- A table word set as the next line is what the next step decodes. -/
theorem nextLine_withFetchWord (s : State) (n w : Nat) :
    nextLine (s.withFetchWord n w) = { op := opOfTableWord n w, operand := .value s.a } := rfl

theorem coreRun_of_next (M : Host.Core) {s t : M.State} (h : M.step s = .next t) (k : Nat) :
    M.run (k + 1) s = M.run k t := by
  simp [Host.Core.run, h]

theorem coreRun_of_fault (M : Host.Core) {s : M.State} {r : M.Fault} (h : M.step s = .fault r) (k : Nat) :
    M.run (k + 1) s = .fault r := by
  simp [Host.Core.run, h]

theorem coreRun_of_refused (M : Host.Core) {s : M.State} {r : M.Refusal} (h : M.step s = .refused r) (k : Nat) :
    M.run (k + 1) s = .refused r := by
  simp [Host.Core.run, h]

theorem run_zero (s : State) : Host.Core.run core 0 s = .next s := rfl

theorem run_succ_of_next {s t : State} (h : step s = .next t) (k : Nat) :
    Host.Core.run core (k + 1) s = Host.Core.run core k t :=
  coreRun_of_next core h k

theorem run_succ_of_fault {s : State} {r : Fault} (h : step s = .fault r) (k : Nat) :
    Host.Core.run core (k + 1) s = .fault r :=
  coreRun_of_fault core h k

theorem run_succ_of_refused {s : State} {r : Refusal} (h : step s = .refused r) (k : Nat) :
    Host.Core.run core (k + 1) s = .refused r :=
  coreRun_of_refused core h k

end Sys2Proof.Machine
end

