-- ==== Sys2Proof/Laws/Unpacker.lean ====
section
/-! SUPPORT. The four cases of the unpacker (43_unpacker.md R105), each with its condition. -/

namespace Sys2Proof.Machine

theorem unpack_zero {F : Format} {h : Nat} (he : expField Config.half h = 0) (hf : sigField Config.half h = 0) :
    unpack F h = assemble F (signField Config.half h) 0 0 := by
  simp [unpack, he, hf]

theorem unpack_sub {F : Format} {h : Nat} (he : expField Config.half h = 0) (hf : sigField Config.half h ≠ 0) :
    unpack F h = unpackSub F (signField Config.half h) (sigField Config.half h) := by
  simp [unpack, he, hf]

theorem unpack_special {F : Format} {h : Nat} (he : expField Config.half h = 31) :
    unpack F h =
      assemble F (signField Config.half h) F.expFieldMax (toWideSig F (sigField Config.half h)) := by
  simp [unpack, he]

theorem unpack_normal {F : Format} {h : Nat} (h₁ : expField Config.half h ≠ 0) (h₂ : expField Config.half h ≠ 31) :
    unpack F h = assemble F (signField Config.half h) (rebiasUp (expField Config.half h) F)
      (toWideSig F (sigField Config.half h)) := by
  simp [unpack, h₁, h₂]

end Sys2Proof.Machine
end

