-- ==== Sys2Proof/Tests/Slice0.lean ====
section
/-! SUPPORT. Tests on fixed words, expected results from 95_test_vectors.md (section in each comment) or written out from
the encodings of 30_encoding.md; and a witness for the hypotheses of each statement. -/

namespace Sys2Proof.Tests

open Sys2Proof.Machine Sys2Proof.Rules

/-- A state with a pair on the ports and nothing pending. -/
def held (op : OpCode) (a : Word) : State := { State.reset with op := op, a := a }

/-- A state with a run ahead and some outcomes read. -/
def ahead (ls : List Line) (done : List Outputs) : State := { State.reset with pending := ls, outcomes := done }

/-- (`Y`, `ILL`) of a next state. -/
def ports : Outcome → Option (Word × Level)
  | .next s => some (s.y, s.ill)
  | .fault _ => none
  | .refused _ => none

/-- (`Y`, `ILL`) of one operation. -/
def run1 (i : Instr) (a : Word) : Option (Word × Level) := ports (exec i (held (encode i) a))

/-! ### Well-formedness: an ill-formed term for each check -/

theorem test_opDefined_refuses_reserved : opDefined 0xA = false := by decide
theorem test_opDefined_accepts_last : opDefined 0x9 = true := by decide
theorem test_sourceWf_refuses_line_zero : sourceWf 2 (.result 0) = false := by decide
theorem test_sourceWf_refuses_own_line : sourceWf 2 (.result 3) = false := by decide
theorem test_lineWf_refuses_reserved : lineWf 0 { op := 0xF, operand := .value 0 } = false := by decide
theorem test_runWf_refuses_later_line :
    runWf 0 [{ op := 0x2, operand := .value 0xC100 }, { op := 0x0, operand := .result 2 }] = false := by decide
theorem test_instr_wf_accepts : Instr.wf .pack32 = true := by decide

/-! ### Decoding: `fn` and `w` written out bit by bit (30_encoding.md R49 to R51, R57) -/

theorem test_decode_pack32 : decode 0b0000 = .ok .pack32 := by rfl
theorem test_decode_pack64 : decode 0b0001 = .ok .pack64 := by rfl
theorem test_decode_unpack32 : decode 0b0010 = .ok .unpack32 := by rfl
theorem test_decode_unpack64 : decode 0b0011 = .ok .unpack64 := by rfl
theorem test_decode_getexp32 : decode 0b0100 = .ok .getexp32 := by rfl
theorem test_decode_getexp64 : decode 0b0101 = .ok .getexp64 := by rfl
theorem test_decode_getsign32 : decode 0b0110 = .ok .getsign32 := by rfl
theorem test_decode_getsign64 : decode 0b0111 = .ok .getsign64 := by rfl
theorem test_decode_getsig32 : decode 0b1000 = .ok .getsig32 := by rfl
theorem test_decode_getsig64 : decode 0b1001 = .ok .getsig64 := by rfl
theorem test_decode_reserved_A : decode 0b1010 = .error .reservedOperationSelect := by rfl
theorem test_decode_reserved_F : decode 0b1111 = .error .reservedOperationSelect := by rfl
theorem test_decodeTableWord : decodeTableWord 8 0x9 = some .getsig64 ∧ decodeTableWord 8 0xA = none := by decide

/-! ### Operations (95_test_vectors.md sections 1.1, 2.1, 2.3 to 2.7) -/

theorem test_pack32_tie_to_even : run1 .pack32 0xDEADBEEF3F801000 = some (0x3C00, 0) := by decide
theorem test_pack32_subnormal_carry : run1 .pack32 0xB87FE000 = some (0x8400, 0) := by decide
theorem test_pack64_sticky_from_lowest_bit : run1 .pack64 0x3FF0020000000001 = some (0x3C01, 0) := by decide
theorem test_pack64_band_is_zero : run1 .pack64 0xBE68000000000000 = some (0x8000, 0) := by decide
theorem test_unpack32_subnormal : run1 .unpack32 0x0155 = some (0x37AA8000, 0) := by decide
theorem test_unpack32_nan_keeps_payload : run1 .unpack32 0xFFFFFFFFFFFFFC01 = some (0xFF802000, 0) := by decide
theorem test_unpack64_subnormal : run1 .unpack64 0x83FF = some (0xBF0FF80000000000, 0) := by decide
theorem test_unpack64_ignores_bit_16 : run1 .unpack64 0x0000000000010000 = some (0, 0) := by decide
theorem test_getexp32_negative : run1 .getexp32 0xBE2ABCDE = some (0xFFFFFFFFFFFFFFFD, 0) := by decide
theorem test_getexp32_low_half_only : run1 .getexp32 0x7FF0000000000000 = some (0xFFFFFFFFFFFFFF81, 0) := by decide
theorem test_getexp64_infinity : run1 .getexp64 0xFFF0000000000000 = some (0x400, 0) := by decide
theorem test_getexp64_negative : run1 .getexp64 0xAAAAAAAAAAAAAAAA = some (0xFFFFFFFFFFFFFEAB, 0) := by decide
theorem test_getsign32_bit_63_is_not_its_sign : run1 .getsign32 0x8000000000000000 = some (0, 0) := by decide
theorem test_getsign32_one : run1 .getsign32 0x80000000 = some (1, 0) := by decide
theorem test_getsign64_one : run1 .getsign64 0xC04123456789ABCD = some (1, 0) := by decide
theorem test_getsign64_zero : run1 .getsign64 0x7FF8000000000000 = some (0, 0) := by decide
theorem test_getsig32_mask : run1 .getsig32 0xFFFFFFFFFFFFFFFF = some (0x7FFFFF, 0) := by decide
theorem test_getsig32_no_implicit_bit : run1 .getsig32 0x3F800000 = some (0, 0) := by decide
theorem test_getsig64_constructed : run1 .getsig64 0xC04123456789ABCD = some (0x123456789ABCD, 0) := by decide
theorem test_getsig64_alternating : run1 .getsig64 0x5555555555555555 = some (0x5555555555555, 0) := by decide

/-! ### Step, fetch and run (95_test_vectors.md sections 2.7 and Part 3) -/

/-- Section 2.7: a reserved code faults, the ports show `ILL = 1`, `Y = 0`. -/
theorem test_reserved_faults : step (held 0xC 0xFFFFFFFFFFFFFFFF) = .fault .reservedOperationSelect := by rfl
theorem test_reserved_outputs : outputs 0xC 0xFFFFFFFFFFFFFFFF = { y := 0, ill := 1 } := by decide

/-- Program P1, line 2: `%1` is put on `A`. -/
theorem test_result_operand :
    ports (step (ahead [{ op := 0x0, operand := .result 1 }] [{ y := 0xC0200000, ill := 0 }])) =
      some (0xC100, 0) := by decide

/-- R61: an operand `%n` is the USED low bits of the earlier result, here the low 32 of 64. -/
theorem test_result_operand_used_bits :
    resolve [{ y := 0x4009200000000000, ill := 0 }] { op := 0x4, operand := .result 1 } = some 0 := by decide

/-- Program P3: a reserved line between two defined ones disturbs neither (the block's own outcome of the run). -/
theorem test_reserved_line_is_not_held :
    blockRun [] [{ op := 0x0, operand := .value 0x3F800000 }, { op := 0xA, operand := .value 0x3F800000 },
      { op := 0x0, operand := .value 0x3F800000 }] =
      some [{ y := 0x3C00, ill := 0 }, { y := 0, ill := 1 }, { y := 0x3C00, ill := 0 }] := by decide

/-- The very next step runs the operation of a table word. -/
theorem test_withFetchWord : step (State.reset.withFetchWord 8 0x5) = exec .getexp64 (held 0x5 0) := by rfl

/-! ### Masks of 10_state.md R28 and internal functions (95_test_vectors.md section 2.2) -/

theorem test_masks_32 : signMask Config.single = 0x80000000 ∧ expMask Config.single = 0x7F800000 ∧
    sigMask Config.single = 0x007FFFFF ∧ implicitBit Config.single = 0x00800000 := by decide
theorem test_masks_64 : signMask Config.double = 0x8000000000000000 ∧ expMask Config.double = 0x7FF0000000000000 ∧
    sigMask Config.double = 0x000FFFFFFFFFFFFF ∧ implicitBit Config.double = 0x0010000000000000 := by decide
theorem test_masks_16 : signMask Config.half = 0x8000 ∧ expMask Config.half = 0x7C00 ∧
    sigMask Config.half = 0x03FF ∧ implicitBit Config.half = 0x0400 := by decide
theorem test_round10_tie_even : round10 0x1000 13 = 0 ∧ round10 0x3000 13 = 2 := by decide
theorem test_round10_carry : round10 0xFFE0000000000 42 = 1024 := by decide

/-! ### Witnesses: hypotheses of the statements, met together -/

theorem witness_DecodeAndEncodeAgree : Instr.wf .getsig64 = true ∧ decode 0x9 = .ok .getsig64 := ⟨rfl, rfl⟩
theorem witness_DecodingIsTotalAndReadsOnlyOp :
    (nextLine (held 0xA 1)).op = (nextLine (ahead [{ op := 0xA, operand := .result 7 }] [])).op := rfl
theorem witness_StepRunsDecodedOperation_held :
    (held 0x9 5).pending = [] ∧ decode (held 0x9 5).op = .ok .getsig64 := ⟨rfl, rfl⟩
theorem witness_StepRunsDecodedOperation_line :
    (ahead [{ op := 0x0, operand := .result 1 }] [{ y := 7, ill := 0 }]).pending =
      { op := 0x0, operand := .result 1 } :: [] ∧ decode 0x0 = .ok .pack32 ∧
    resolve [{ y := 7, ill := 0 }] { op := 0x0, operand := .result 1 } = some 7 := ⟨rfl, rfl, by decide⟩
theorem witness_ReservedSelectIsTheOneFault :
    10 ≤ (nextLine (held 0xA 0)).op.toNat ∧ 10 ≤ (0xA : OpCode).toNat ∧ (0x9 : OpCode).toNat < 10 := by decide
theorem witness_OnlyMissingResultIsRefused :
    step (ahead [{ op := 0x9, operand := .result 0 }] []) = .refused .operandNotProduced ∧
    step (ahead [{ op := 0x9, operand := .result 1 }] []) = .refused .operandNotProduced ∧
    step (ahead [{ op := 0x9, operand := .result 1 }] [{ y := 0, ill := 1 }]) = .refused .operandNotProduced :=
  ⟨rfl, rfl, rfl⟩
theorem witness_OutputsAreAFunctionOfTheInputs :
    step (held 0x6 0x80000000) = .next (deliver 1 (held 0x6 0x80000000)) ∧
    step (ahead [{ op := 0x6, operand := .value 0x80000000 }] []) = .next (deliver 1 (held 0x6 0x80000000)) :=
  ⟨rfl, rfl⟩
theorem witness_ExecFrame : exec .getsign32 (held 0x6 0x80000000) = .next (deliver 1 (held 0x6 0x80000000)) := rfl
theorem witness_BitsAboveTheLaneAreIgnored :
    low (laneOf .unpack64) 0x3C00 = low (laneOf .unpack64) 0xFFFFFFFFFFFF3C00 ∧
    low (laneOf .pack32) 0x3C00 = low (laneOf .pack32) 0xFFFFFFFF00003C00 := by decide
theorem witness_ResultLanes : 10 ≤ (0xA : OpCode).toNat ∧ 10 ≤ (0xF : OpCode).toNat := by decide
theorem witness_Getexp32Result_zero : (low 32 (held 0x4 0x807FFFFF).a >>> 23) &&& 0xFF = 0 := by decide
theorem witness_Getexp32Result_ones : (low 32 (held 0x4 0x7F800000).a >>> 23) &&& 0xFF = 255 := by decide
theorem witness_Getexp64Result_zero : ((held 0x5 0x000FFFFFFFFFFFFF).a.toNat >>> 52) &&& 0x7FF = 0 := by decide
theorem witness_Getexp64Result_ones : ((held 0x5 0x7FF0000000000000).a.toNat >>> 52) &&& 0x7FF = 2047 := by decide
theorem witness_Getsig32Result_one : low 32 (held 0x8 0x3F800000).a = 0x3F800000 := by decide
theorem witness_Getsig32Result_infinity :
    classify Config.single (low 32 (held 0x8 0xFF800000).a) = .infinity := by decide
theorem witness_Getsig32Result_nan : classify Config.single (low 32 (held 0x8 0x7F800001).a) = .nan := by decide
theorem witness_Getsig64Result_one : (held 0x9 0x3FF0000000000000).a = 0x3FF0000000000000#64 := rfl
theorem witness_Getsig64Result_infinity :
    classify Config.double (held 0x9 0xFFF0000000000000).a.toNat = .infinity := by decide
theorem witness_Getsig64Result_nan :
    classify Config.double (held 0x9 0x7FF0000000000001).a.toNat = .nan := by decide
theorem witness_FieldFunctionsAreSlices : IsWide Config.single ∧ 0xFFFFFFFF < 2 ^ Config.single.width :=
  ⟨.inl rfl, by decide⟩
theorem witness_FieldsReassemble :
    IsWide Config.double ∧ 0xC04123456789ABCD < 2 ^ Config.double.width ∧
    (1 : Nat) ≤ 1 ∧ -(Config.double.bias : Int) ≤ -1023 ∧ (1024 : Int) ≤ Config.double.bias + 1 ∧
    0xFFFFFFFFFFFFF < 2 ^ Config.double.sigBits := ⟨.inr rfl, by decide⟩
theorem witness_RebiasDownIsTheResultField :
    (16 : Int) > 15 ∧ (-14 : Int) ≤ -14 ∧ (15 : Int) ≤ 15 ∧ (-15 : Int) < -14 ∧
    IsWide Config.single ∧ 0x387FE000 < 2 ^ Config.single.width :=
  ⟨by decide, by decide, by decide, by decide, .inl rfl, by decide⟩
theorem witness_SubshiftBringsToSubnormalScale : IsWide Config.single ∧ (-24 : Int) ≤ -15 ∧ (-15 : Int) ≤ -15 :=
  ⟨.inl rfl, by decide⟩
theorem witness_RebiasUpFormulas : 1 ≤ 30 ∧ 30 ≤ 30 ∧ 9 ≤ 9 ∧ IsWide Config.double :=
  ⟨by decide, by decide, by decide, .inr rfl⟩
theorem witness_HalfToWideExponentMap :
    classify Config.half 0x8000 = .zero ∧ classify Config.half 0x03FF = .subnormal ∧
    classify Config.half 0x7BFF = .normal ∧ classify Config.half 0x7C00 = .infinity ∧
    classify Config.half 0xFFFF = .nan ∧ 0xFFFF < 2 ^ 16 := by decide
theorem witness_RoundIncrementTruthTable :
    roundGuard 0xFFF 13 = 0 ∧
    (roundGuard 0x1000 13 = 1 ∧ roundSticky 0x1000 13 = 0 ∧ roundLsb 0x1000 13 = 0) ∧
    (roundGuard 0x3 1 = 1 ∧ roundSticky 0x3 1 = 0 ∧ roundLsb 0x3 1 = 1) ∧
    (roundGuard 0x1001 13 = 1 ∧ roundSticky 0x1001 13 = 1) := by decide
theorem witness_RoundingRangeOnBothPaths :
    IsWide Config.single ∧ 0x7FFFFF < 2 ^ Config.single.sigBits ∧ (-24 : Int) ≤ -15 ∧ (-15 : Int) ≤ -15 :=
  ⟨.inl rfl, by decide⟩
theorem witness_RoundingIsNearestTiesToEven :
    1 ≤ 1 ∧ |(round10 1 1 : ℚ) - (1 : ℚ) / 2 ^ 1| = 1 / 2 ∧ |((0 : ℤ) : ℚ) - ((1 : ℕ) : ℚ) / 2 ^ 1| ≤ 1 / 2 ∧
    0x2000 % 2 ^ 13 = 0 := by
  have h : round10 1 1 = 0 := by decide
  rw [h]
  norm_num
theorem witness_Pack32Result :
    (0x3F801000, 0x3C00) ∈ pack32Corners ∧ 0x47800000 ≤ 0x7F800000 ∧ 0 < 0x7FFFFF ∧ 0x7FFFFF < 2 ^ 23 := by decide
theorem witness_Pack64Result :
    (0x3FF0020000000001, 0x3C01) ∈ pack64Corners ∧ 0x40F0000000000000 ≤ 0x7FF0000000000000 ∧
    0 < 0xFFFFFFFFFFFFF ∧ 0xFFFFFFFFFFFFF < 2 ^ 52 := by decide
theorem witness_PackZeroAndTinyGiveSignedZero :
    IsWide Config.single ∧ 0x80000000 < 2 ^ Config.single.width ∧ expField Config.single 0x80000000 = 0 ∧
    sigField Config.single 0x80000000 = 0 ∧ signField Config.single 0x80000000 = 1 ∧
    signField Config.single 0 = 0 ∧ unbiasedExp Config.single 0x337FFFFF < -24 := ⟨.inl rfl, by decide⟩
theorem witness_PackOverRangeGivesInfinityOrNan :
    IsWide Config.single ∧ 0xFFFFFFFF < 2 ^ Config.single.width ∧
    (unbiasedExp Config.single 0x7F800001 > 15 ∧ expField Config.single 0x7F800001 = 2 ^ Config.single.expBits - 1 ∧
      sigField Config.single 0x7F800001 ≠ 0 ∧ signField Config.single 0x7F800001 = 0 ∧
      signField Config.single 0xFF800001 = 1) ∧
    (unbiasedExp Config.single 0x47800000 > 15 ∧
      ¬(expField Config.single 0x47800000 = 2 ^ Config.single.expBits - 1 ∧ sigField Config.single 0x47800000 ≠ 0) ∧
      signField Config.single 0xC7800000 = 1) := ⟨.inl rfl, by decide⟩
theorem witness_PackSubnormalRange :
    IsWide Config.single ∧ 0x387FE000 < 2 ^ Config.single.width ∧ -24 ≤ unbiasedExp Config.single 0x387FE000 ∧
    unbiasedExp Config.single 0x387FE000 ≤ -15 := ⟨.inl rfl, by decide⟩
theorem witness_PackNormalRange :
    IsWide Config.single ∧ 0x477FF000 < 2 ^ Config.single.width ∧ -14 ≤ unbiasedExp Config.single 0x477FF000 ∧
    unbiasedExp Config.single 0x477FF000 ≤ 15 := ⟨.inl rfl, by decide⟩
theorem witness_PackAssembly :
    IsWide Config.double ∧ 0x3F0FFC0000000000 < 2 ^ Config.double.width ∧
    (-14 ≤ unbiasedExp Config.double 0x3FF0020000000001 ∧ unbiasedExp Config.double 0x3FF0020000000001 ≤ 15) ∧
    (-24 ≤ unbiasedExp Config.double 0x3F0FFC0000000000 ∧ unbiasedExp Config.double 0x3F0FFC0000000000 ≤ -15) ∧
    unbiasedExp Config.double 0x40F0000000000000 > 15 ∧ unbiasedExp Config.double 0x3E68000000000000 < -24 :=
  ⟨.inr rfl, by decide⟩
theorem witness_PackedNanHoldsForEveryParameter :
    1 ≤ 0x3FF ∧ 0x3FF ≤ 0x3FF ∧ IsWide Config.single ∧ 0x7F800001 < 2 ^ Config.single.width ∧
    classify Config.single 0x7F800001 = .nan ∧ classify Config.single 0x7F800000 ≠ .nan :=
  ⟨by decide, by decide, .inl rfl, by decide⟩
theorem witness_SpecialWidePatternsLand :
    IsWide Config.single ∧ 0x80000000 < 2 ^ Config.single.width ∧ classify Config.single 0x80000000 = .zero ∧
    classify Config.single 0x007FFFFF = .subnormal ∧ classify Config.single 0x7F800000 = .infinity ∧
    classify Config.single 0x7FC00000 = .nan ∧ classDown (unbiasedExp Config.single 0x387FE000) = .sub ∧
    classDown (unbiasedExp Config.single 0x3F800000) = .normal := ⟨.inl rfl, by decide⟩
theorem witness_PackImage :
    IsWide Config.single ∧ 0xFE00 < 2 ^ 16 ∧ ∃ a < 2 ^ Config.single.width, pack Config.single a = 0xFE00 :=
  ⟨.inl rfl, by decide, 0xFFC00000, by decide, by decide⟩
theorem magnitude_two : magnitude Config.single 0x40000000 = 2 := by
  have he : expField Config.single 0x40000000 = 128 := by decide
  have hf : sigField Config.single 0x40000000 = 0 := by decide
  simp [magnitude, he, hf]
theorem magnitude_infinity_pattern : (2 : ℚ) ^ 16 ≤ magnitude Config.single 0x47800000 := by
  have he : expField Config.single 0x47800000 = 143 := by decide
  have hf : sigField Config.single 0x47800000 = 0 := by decide
  simp only [magnitude, he, hf, single_bias, single_sigBits]
  norm_num
theorem witness_PackIsNearestOutsideTheBand_near :
    IsWide Config.single ∧ 0x40000000 < 2 ^ Config.single.width ∧ classify Config.single 0x40000000 ≠ .nan ∧
    ¬InBand Config.single 0x40000000 ∧ classify Config.single 0x40000000 ≠ .infinity ∧
    magnitude Config.single 0x40000000 < 2 ^ 16 ∧ 0x7C00 < 2 ^ 16 ∧ classify Config.half 0x7C00 ≠ .nan := by
  refine ⟨.inl rfl, by decide, by decide, ?_, by decide, ?_, by decide, by decide⟩
  · exact fun h => absurd h.1 (by decide)
  · rw [magnitude_two]
    norm_num
theorem witness_PackIsNearestOutsideTheBand_over :
    classify Config.single 0x47800000 ≠ .nan ∧ ¬InBand Config.single 0x47800000 ∧
    classify Config.single 0x47800000 ≠ .infinity ∧ (2 : ℚ) ^ 16 ≤ magnitude Config.single 0x47800000 ∧
    classify Config.single 0x7F800000 = .infinity ∧ ¬InBand Config.single 0x7F800000 :=
  ⟨by decide, fun h => absurd h.1 (by decide), by decide, magnitude_infinity_pattern, by decide,
    fun h => absurd h.1 (by decide)⟩
theorem witness_PackIsNearestOutsideTheBand_band :
    IsWide Config.double ∧ 0x3E60000000000001 < 2 ^ Config.double.width ∧ InBand Config.double 0x3E60000000000001 :=
  ⟨.inr rfl, by decide, by decide, by decide⟩
theorem witness_PackSignSymmetry : IsWide Config.single ∧ 0x7FC00000 < 2 ^ Config.single.width :=
  ⟨.inl rfl, by decide⟩
theorem witness_UnpackCorners :
    (0x03FF, 0x387FC000) ∈ unpack32Corners ∧ (0x03FF, 0x3F0FF80000000000) ∈ unpack64Corners ∧ 0xFFFF < 2 ^ 16 := by
  decide
theorem witness_LeadposIsTheTopOneBit : 1 ≤ 0x3FF ∧ 0x3FF ≤ 1023 ∧ 9 ≤ 9 ∧ Nat.testBit 0x3FF 9 = true := by decide
theorem witness_UnpackAssembly : IsWide Config.double ∧ 0x8001 < 2 ^ 16 := ⟨.inr rfl, by decide⟩
theorem witness_UnpackIsExact :
    IsWide Config.single ∧ 0x7C01 < 2 ^ 16 ∧ classify Config.half 0x7C01 = .nan ∧ classify Config.half 0x7C00 ≠ .nan ∧
    classify Config.half 0x8000 = .zero ∧ classify Config.half 0x0001 = .subnormal ∧
    classify Config.half 0x0400 = .normal ∧ classify Config.half 0xFC00 = .infinity := ⟨.inl rfl, by decide⟩
theorem witness_UnpackIsInjectiveWithImage :
    IsWide Config.single ∧ 0x33800000 < 2 ^ Config.single.width ∧
    unpack Config.single 0x0001 = unpack Config.single 0x0001 := ⟨.inl rfl, by decide, rfl⟩
theorem witness_RoundTrip :
    IsWide Config.double ∧ 0x7E00 < 2 ^ 16 ∧ classify Config.half 0x7BFF ≠ .nan ∧ classify Config.half 0x7E00 = .nan :=
  ⟨.inr rfl, by decide⟩
theorem witness_RoundTripRun :
    (ahead [{ op := encode .unpack64, operand := .value ((0xC100 : Bits16).setWidth 64) },
      { op := encode .pack64, operand := .result 1 }] []).outcomes = [] ∧
    (ahead [{ op := encode .unpack64, operand := .value ((0xC100 : Bits16).setWidth 64) },
      { op := encode .pack64, operand := .result 1 }] []).pending =
      [{ op := encode (if true then .unpack64 else .unpack32), operand := .value ((0xC100 : Bits16).setWidth 64) },
        { op := encode (if true then .pack64 else .pack32), operand := .result 1 }] := ⟨rfl, rfl⟩
theorem witness_PackUnpackIdempotence :
    IsWide Config.single ∧ 0x3F801000 < 2 ^ Config.single.width ∧ 0x7C00 < 2 ^ 16 ∧
    classify Config.half 0x7C00 ≠ .nan := ⟨.inl rfl, by decide⟩
theorem witness_SourceBoundaryProperties :
    0x477FF000 ≤ 0x7F800000 ∧ 0x40EFFE0000000000 ≤ 0x7FF0000000000000 ∧ IsWide Config.single ∧
    0x7F800001 < 2 ^ Config.single.width ∧ classify Config.single 0x7F800001 = .nan :=
  ⟨by decide, by decide, .inl rfl, by decide⟩
theorem witness_ClassPreservation :
    IsWide Config.double ∧ 0xFFF0000000000001 < 2 ^ Config.double.width ∧
    classify Config.double 0x8000000000000000 = .zero ∧ classify Config.double 0xFFF0000000000000 = .infinity ∧
    classify Config.double 0x000FFFFFFFFFFFFF = .subnormal ∧ classify Config.double 0xFFF0000000000001 = .nan :=
  ⟨.inr rfl, by decide⟩
theorem witness_PackAccuracy :
    IsWide Config.single ∧ 0x477FE000 < 2 ^ Config.single.width ∧
    (classify Config.single 0x477FE000 = .normal ∧ -24 ≤ unbiasedExp Config.single 0x477FE000 ∧
      unbiasedExp Config.single 0x477FE000 ≤ 15 ∧ classify Config.half (pack Config.single 0x477FE000) ≠ .infinity) ∧
    (classify Config.single 0x47800000 = .normal ∧ 15 < unbiasedExp Config.single 0x47800000) ∧
    (classify Config.single 0x337FFFFF = .normal ∧ unbiasedExp Config.single 0x337FFFFF < -24) :=
  ⟨.inl rfl, by decide⟩
theorem witness_PackIsMonotone_pack :
    IsWide Config.single ∧ 0x80000000 < 2 ^ Config.single.width ∧ classify Config.single 0x80000000 ≠ .nan ∧
    classify Config.single 0x00000000 ≠ .nan ∧ (val Config.single 0x80000000).notAbove (val Config.single 0) := by
  refine ⟨.inl rfl, by decide, by decide, by decide, ?_⟩
  have h₁ : classify Config.single 0x80000000 = .zero := by decide
  have h₂ : classify Config.single 0 = .zero := by decide
  have s₁ : signField Config.single 0x80000000 = 1 := by decide
  have s₂ : signField Config.single 0 = 0 := by decide
  have e₁ : expField Config.single 0x80000000 = 0 := by decide
  have e₂ : expField Config.single 0 = 0 := by decide
  have f₁ : sigField Config.single 0x80000000 = 0 := by decide
  have f₂ : sigField Config.single 0 = 0 := by decide
  simp [val, h₁, h₂, s₁, s₂, Value.notAbove, finiteValue, magnitude, e₁, e₂, f₁, f₂]
theorem witness_PackIsMonotone_unpack :
    classify Config.half 0xFC00 ≠ .nan ∧ classify Config.half 0x7C00 ≠ .nan ∧ 0xFC00 ≠ 0x7C00 ∧
    (val Config.half 0xFC00).notAbove (val Config.half 0x7C00) := by
  refine ⟨by decide, by decide, by decide, ?_⟩
  have h₁ : classify Config.half 0xFC00 = .infinity := by decide
  have h₂ : classify Config.half 0x7C00 = .infinity := by decide
  have s₂ : signField Config.half 0x7C00 = 0 := by decide
  simp [val, h₁, h₂, s₂, Value.notAbove]
theorem witness_WidthsAgree_number :
    0x40000000 < 2 ^ 32 ∧ 0x4000000000000000 < 2 ^ 64 ∧ classify Config.single 0x40000000 ≠ .nan ∧
    classify Config.double 0x4000000000000000 ≠ .nan ∧
    val Config.single 0x40000000 = val Config.double 0x4000000000000000 := by
  refine ⟨by decide, by decide, by decide, by decide, ?_⟩
  have h₁ : classify Config.single 0x40000000 = .normal := by decide
  have h₂ : classify Config.double 0x4000000000000000 = .normal := by decide
  have s₁ : signField Config.single 0x40000000 = 0 := by decide
  have s₂ : signField Config.double 0x4000000000000000 = 0 := by decide
  have e₂ : expField Config.double 0x4000000000000000 = 1024 := by decide
  have f₂ : sigField Config.double 0x4000000000000000 = 0 := by decide
  simp only [val, h₁, h₂, s₁, s₂, finiteValue, magnitude_two]
  simp [magnitude, e₂, f₂]
theorem witness_WidthsAgree_nan :
    classify Config.single 0xFF800001 = .nan ∧ classify Config.double 0xFFFFFFFFFFFFFFFF = .nan ∧
    signField Config.single 0xFF800001 = signField Config.double 0xFFFFFFFFFFFFFFFF := by decide
theorem witness_RunOutcomeIsTheBlocks_empty :
    (∀ l ∈ (held 0x6 0x80000000).pending, l.op.toNat < 10) ∧ (held 0x6 0x80000000).pending = [] ∧
    blockRun (held 0x6 0x80000000).outcomes (held 0x6 0x80000000).pending = some (held 0x6 0x80000000).outcomes :=
  ⟨by decide, rfl, rfl⟩
theorem witness_RunOutcomeIsTheBlocks_next :
    (∀ l ∈ [{ op := 0x6, operand := .value 0x80000000 }, { op := 0x9, operand := .result 1 : Line }],
      l.op.toNat < 10) ∧
    [{ op := 0x6, operand := .value 0x80000000 }, { op := 0x9, operand := .result 1 : Line }].getLast? =
      some { op := 0x9, operand := .result 1 } ∧
    blockRun [] [{ op := 0x6, operand := .value 0x80000000 }, { op := 0x9, operand := .result 1 }] =
      some [{ y := 1, ill := 0 }, { y := 1, ill := 0 }] ∧
    resolve [{ y := 1, ill := 0 }] { op := 0x9, operand := .result 1 } = some 1 ∧
    outputs 0x9 1 = { y := 1, ill := 0 } := by decide
theorem witness_RunOutcomeIsTheBlocks_fault :
    (ahead [{ op := 0x6, operand := .value 0x80000000 }, { op := 0xA, operand := .result 9 },
        { op := 0x0, operand := .value 0 }] []).pending =
      [{ op := 0x6, operand := .value 0x80000000 }] ++
        { op := 0xA, operand := .result 9 } :: [{ op := 0x0, operand := .value 0 }] ∧
    10 ≤ (0xA : OpCode).toNat ∧
    (∀ k ∈ [{ op := 0x6, operand := .value 0x80000000 : Line }], k.op.toNat < 10) ∧
    blockRun [] [{ op := 0x6, operand := .value 0x80000000 }] = some [{ y := 1, ill := 0 }] := by decide
theorem witness_SafeRunsNeverStop :
    Safe (ahead [{ op := 0x2, operand := .value 0xC100 }, { op := 0x0, operand := .result 1 }] []) :=
  ⟨by decide, fun o h => absurd h (by simp [ahead]), by decide⟩
theorem witness_StepKeepsRunAndPortsInOrder :
    NoFaultRecorded State.reset ∧ PortsAgree State.reset ∧ step State.reset = .next (deliver 0 State.reset) :=
  ⟨fun o h => absurd h (by simp [State.reset]), by unfold PortsAgree; decide, rfl⟩
theorem witness_HoldingThePairChangesNoPort :
    step State.reset = .next (deliver 0 State.reset) ∧ (deliver 0 State.reset).pending = [] := ⟨rfl, rfl⟩

end Sys2Proof.Tests
end

section
/-! SUPPORT. Where the block's two descriptions meet: every operation, and so every step that answers, delivers what
the output function of 30_encoding.md R56 gives for the pair on the ports; and the statement of 10_state.md R23. -/

namespace Sys2Proof.Machine

/-- A code is decoded only to the operation it encodes. -/
theorem encode_of_decode {op : OpCode} {i : Instr} (h : decode op = .ok i) : encode i = op := by
  revert op
  cases i <;> decide

theorem halfOperand_eq (a : Word) : halfOperand a = (operand16 a).toNat := by
  rw [halfOperand, Nat.and_two_pow_sub_one_eq_mod, operand16_toNat]

theorem wideOperand_of_single {op : OpCode} (h : wideFormat op = Config.single) (a : Word) :
    wideOperand op a = (operand32 a).toNat := by
  rw [wideOperand, h, single_width, Nat.and_two_pow_sub_one_eq_mod, operand32_toNat]

theorem wideOperand_of_double {op : OpCode} (h : wideFormat op = Config.double) (a : Word) :
    wideOperand op a = (operand64 a).toNat := by
  rw [wideOperand, h, double_width, Nat.and_two_pow_sub_one_eq_mod, operand64_toNat, Nat.mod_eq_of_lt a.isLt]

/-- The `ILL` level of every operation's code is 0 (R58). -/
theorem outputs_encode_ill (i : Instr) (a : Word) : (outputs (encode i) a).ill = 0 := by
  cases i <;> rfl

/-- Every operation delivers the `Y` that the output function gives for its code and the level on `A` (R56). The two
read the operand from `A` differently, as a slice and through a mask; with the slice turned into the mask they are one
term. -/
theorem exec_eq_deliver_outputs (i : Instr) (s : State) :
    exec i s = .next (deliver (outputs (encode i) s.a).y s) := by
  cases i
  case pack32 => rw [exec, execPack32, ← wideOperand_of_single (op := encode .pack32) rfl]; rfl
  case pack64 => rw [exec, execPack64, ← wideOperand_of_double (op := encode .pack64) rfl]; rfl
  case unpack32 => rw [exec, execUnpack32, ← halfOperand_eq]; rfl
  case unpack64 => rw [exec, execUnpack64, ← halfOperand_eq]; rfl
  case getexp32 => rw [exec, execGetexp32, ← wideOperand_of_single (op := encode .getexp32) rfl]; rfl
  case getexp64 => rw [exec, execGetexp64, ← wideOperand_of_double (op := encode .getexp64) rfl]; rfl
  case getsign32 => rw [exec, execGetsign32, ← wideOperand_of_single (op := encode .getsign32) rfl]; rfl
  case getsign64 => rw [exec, execGetsign64, ← wideOperand_of_double (op := encode .getsign64) rfl]; rfl
  case getsig32 => rw [exec, execGetsig32, ← wideOperand_of_single (op := encode .getsig32) rfl]; rfl
  case getsig64 => rw [exec, execGetsig64, ← wideOperand_of_double (op := encode .getsig64) rfl]; rfl

/-- An operation run on its own code leaves the output function of the pair on the ports. -/
theorem outputs_of_exec {i : Instr} {s t : State} (hop : encode i = s.op) (h : exec i s = .next t) :
    outputs t.op t.a = { y := t.y, ill := t.ill } := by
  rw [exec_eq_deliver_outputs] at h
  obtain rfl : deliver (outputs (encode i) s.a).y s = t := by simpa using h
  simp only [deliver_op, deliver_a, deliver_y, deliver_ill, ← hop, ← outputs_encode_ill i s.a]

/-- A step that answers leaves the output function of `OP` and `A` on `Y` and `ILL` (10_state.md R23). -/
theorem outputs_of_step {s t : State} (h : step s = .next t) : outputs t.op t.a = { y := t.y, ill := t.ill } := by
  obtain ⟨i, a, -, -, hd, -, hx, -⟩ := step_next h
  exact outputs_of_exec (s := present (nextLine s).op a s) (encode_of_decode hd) hx

/-- Settles O7: equal inputs give equal outputs because the outputs are the one function of the inputs. -/
theorem outputsAreAFunctionOfTheInputs : Obligations.OutputsAreAFunctionOfTheInputs := by
  refine ⟨fun s t h => outputs_of_step h, fun s₁ s₂ t₁ t₂ h₁ h₂ hop ha => ?_⟩
  have heq : ({ y := t₁.y, ill := t₁.ill } : Outputs) = { y := t₂.y, ill := t₂.ill } := by
    rw [← outputs_of_step h₁, ← outputs_of_step h₂, hop, ha]
  exact Outputs.mk.inj heq

end Sys2Proof.Machine
end

section
/-! SUPPORT. The field extractor (40_field_extractor.md): its field functions as slices of the pattern, its six
operations as answers, and the statements O12 to O18. -/

namespace Sys2Proof.Machine

open Sys2Proof.Rules

/-! ### The sign field and the unbiased exponent of a pattern in range (R63) -/

/-- A pattern of the format's width has nothing above its sign bit. -/
theorem signField_eq_div {F : Format} {a : Nat} (h : a < 2 ^ F.width) :
    signField F a = a / 2 ^ (F.expBits + F.sigBits) := by
  have hlt : a / 2 ^ (F.expBits + F.sigBits) < 2 := by
    rw [Nat.div_lt_iff_lt_mul (Nat.two_pow_pos _), ← pow_succ', Nat.add_comm, ← Nat.add_assoc]
    exact h
  rw [signField_eq_div_mod, Nat.mod_eq_of_lt hlt]

/-- The sign is a comparison with the mask `2^(E+M)`, so a number 0 or 1. -/
theorem signField_eq_ite {F : Format} {a : Nat} (h : a < 2 ^ F.width) :
    signField F a = if 2 ^ (F.expBits + F.sigBits) ≤ a then 1 else 0 := by
  split
  next hge =>
    have hpos : 0 < signField F a := by
      rw [signField_eq_div h]
      exact Nat.div_pos hge (Nat.two_pow_pos _)
    exact le_antisymm (signField_le_one F a) hpos
  next hlt => rw [signField_eq_div h, Nat.div_eq_of_lt (not_le.mp hlt)]

theorem two_pow_expBits_of_isWide {F : Format} (h : IsWide F) : 2 ^ F.expBits = 2 * F.bias + 2 := by
  obtain rfl | rfl := h <;> rfl

theorem unbiasedExp_ge (F : Format) (a : Nat) : -(F.bias : Int) ≤ unbiasedExp F a := by
  unfold unbiasedExp
  omega

theorem unbiasedExp_le {F : Format} (h : IsWide F) (a : Nat) : unbiasedExp F a ≤ F.bias + 1 := by
  have hlt : expField F a < 2 * F.bias + 2 := two_pow_expBits_of_isWide h ▸ expField_lt F a
  unfold unbiasedExp
  omega

/-- Settles O18, field by field. -/
theorem fieldFunctionsAreSlices : Obligations.FieldFunctionsAreSlices := by
  intro F a hF ha
  have hw : F.width - 1 = F.expBits + F.sigBits := by
    unfold Format.width
    omega
  refine ⟨?_, signField_le_one F a, expField_eq_div_mod F a, Nat.le_sub_one_of_lt (expField_lt F a), rfl,
    unbiasedExp_ge F a, unbiasedExp_le hF a, sigField_eq_mod F a, Nat.le_sub_one_of_lt (sigField_lt F a)⟩
  rw [hw, signField_eq_div ha]

/-! ### The operations as answers (R65 to R70) -/

theorem low_lt (n : Nat) (a : Word) : low n a < 2 ^ n := Nat.mod_lt _ (Nat.two_pow_pos n)

theorem operand32_toNat_eq_low (a : Word) : (operand32 a).toNat = low 32 a := operand32_toNat a

theorem exec_getexp32 (s : State) :
    exec .getexp32 s = answers s (sext64 (unbiasedExp Config.single (low 32 s.a))) := by
  rw [← operand32_toNat_eq_low]
  rfl

theorem exec_getexp64 (s : State) :
    exec .getexp64 s = answers s (sext64 (unbiasedExp Config.double s.a.toNat)) := rfl

theorem exec_getsign32 (s : State) :
    exec .getsign32 s = answers s (zext64 (signField Config.single (low 32 s.a))) := by
  rw [← operand32_toNat_eq_low]
  rfl

theorem exec_getsign64 (s : State) :
    exec .getsign64 s = answers s (zext64 (signField Config.double s.a.toNat)) := rfl

theorem exec_getsig32 (s : State) :
    exec .getsig32 s = answers s (zext64 (sigField Config.single (low 32 s.a))) := by
  rw [← operand32_toNat_eq_low]
  rfl

theorem exec_getsig64 (s : State) :
    exec .getsig64 s = answers s (zext64 (sigField Config.double s.a.toNat)) := rfl

/-! ### Exponent (R65, R66) -/

theorem unbiasedExp_single (a : Nat) : unbiasedExp Config.single a = (((a >>> 23) &&& 0xFF : Nat) : Int) - 127 := rfl

theorem unbiasedExp_double (a : Nat) : unbiasedExp Config.double a = (((a >>> 52) &&& 0x7FF : Nat) : Int) - 1023 := rfl

/-- Settles O12: the formula of R63 at the single format, evaluated at both ends of the field. -/
theorem getexp32Result : Obligations.Getexp32Result := by
  refine ⟨rfl, fun s => ?formula, fun s h => ?zeroField, fun s h => ?onesField⟩
  case formula => rw [exec_getexp32, unbiasedExp_single, sext64]
  case zeroField => rw [exec_getexp32, unbiasedExp_single, h]; rfl
  case onesField => rw [exec_getexp32, unbiasedExp_single, h]; rfl

/-- Settles O13: the formula of R63 at the double format, evaluated at both ends of the field. -/
theorem getexp64Result : Obligations.Getexp64Result := by
  refine ⟨rfl, fun s => ?formula, fun s h => ?zeroField, fun s h => ?onesField⟩
  case formula => rw [exec_getexp64, unbiasedExp_double, sext64]
  case zeroField => rw [exec_getexp64, unbiasedExp_double, h]; rfl
  case onesField => rw [exec_getexp64, unbiasedExp_double, h]; rfl

/-! ### Sign (R67, R68) -/

/-- The sign on `Y` is the word 1 or 0, with nothing extended into the bits above. -/
theorem zext64_signField {F : Format} {a : Nat} (h : a < 2 ^ F.width) :
    zext64 (signField F a) = if 2 ^ (F.expBits + F.sigBits) ≤ a then 1 else 0 := by
  rw [signField_eq_ite h, apply_ite zext64]
  rfl

/-- Settles O14: mask and shift are the model's own form, and the sign is a comparison with the mask. -/
theorem getsign32Result : Obligations.Getsign32Result := by
  refine ⟨rfl, exec_getsign32, fun s => ?_⟩
  rw [exec_getsign32, zext64_signField (F := Config.single) (low_lt 32 s.a)]
  rfl

/-- Settles O15: mask and shift are the model's own form, and the sign is a comparison with the mask. -/
theorem getsign64Result : Obligations.Getsign64Result := by
  refine ⟨rfl, exec_getsign64, fun s => ?_⟩
  rw [exec_getsign64, zext64_signField (F := Config.double) s.a.isLt]
  rfl

/-! ### Significand (R69, R70) -/

theorem sigField_eq_zero_of_infinity {F : Format} {a : Nat} (h : classify F a = .infinity) : sigField F a = 0 := by
  unfold classify at h
  split_ifs at h
  assumption

theorem sigField_ne_zero_of_nan {F : Format} {a : Nat} (h : classify F a = .nan) : sigField F a ≠ 0 := by
  unfold classify at h
  split_ifs at h
  assumption

/-- The payload of a NaN is not lost on `Y`, which is wide enough for the significand. -/
theorem zext64_sigField_ne_zero {F : Format} {a : Nat} (hF : F.sigBits ≤ 64) (h : classify F a = .nan) :
    zext64 (sigField F a) ≠ 0 := by
  intro h0
  have hlt : sigField F a < 2 ^ 64 := (sigField_lt F a).trans_le (Nat.pow_le_pow_right two_pos hF)
  have hz : sigField F a = 0 := by
    rw [← zext64_toNat hlt, h0]
    rfl
  exact sigField_ne_zero_of_nan h hz

/-- Settles O16: the mask is the model's own form, and the class of the pattern says whether the field is 0. -/
theorem getsig32Result : Obligations.Getsig32Result := by
  refine ⟨rfl, exec_getsig32, fun s h => ?one, fun s h => ?infinity, fun s h => ?nan⟩
  case one => rw [exec_getsig32, h]; rfl
  case infinity => rw [exec_getsig32, sigField_eq_zero_of_infinity h]; rfl
  case nan => exact ⟨_, zext64_sigField_ne_zero (by decide) h, exec_getsig32 s⟩

/-- Settles O17: the mask is the model's own form, and the class of the pattern says whether the field is 0. -/
theorem getsig64Result : Obligations.Getsig64Result := by
  refine ⟨rfl, exec_getsig64, fun s h => ?one, fun s h => ?infinity, fun s h => ?nan⟩
  case one => rw [exec_getsig64, h]; rfl
  case infinity => rw [exec_getsig64, sigField_eq_zero_of_infinity h]; rfl
  case nan => exact ⟨_, zext64_sigField_ne_zero (by decide) h, exec_getsig64 s⟩

end Sys2Proof.Machine
end

section
/-! SUPPORT. The rebias engine (41_rebias_rounding.md R74 to R79): the ranges of the unbiased exponent, the exponent
field of the packer's result, the exponent field of the unpacker's result; and the statements O20, O21 and O24. -/

namespace Sys2Proof.Machine

open Sys2Proof.Rules

/-! ### The four ranges of the unbiased exponent (R75) -/

theorem classDown_cases (e : Int) :
    (15 < e ∧ classDown e = .over) ∨ (-14 ≤ e ∧ e ≤ 15 ∧ classDown e = .normal) ∨
    (-24 ≤ e ∧ e ≤ -15 ∧ classDown e = .sub) ∨ (e < -24 ∧ classDown e = .tiny) := by
  have hcover : 15 < e ∨ (-14 ≤ e ∧ e ≤ 15) ∨ (-24 ≤ e ∧ e ≤ -15) ∨ e < -24 := by omega
  obtain h | ⟨h₁, h₂⟩ | ⟨h₁, h₂⟩ | h := hcover
  · exact .inl ⟨h, classDown_over h⟩
  · exact .inr (.inl ⟨h₁, h₂, classDown_normal h₁ h₂⟩)
  · exact .inr (.inr (.inl ⟨h₁, h₂, classDown_sub h₁ h₂⟩))
  · exact .inr (.inr (.inr ⟨h, classDown_tiny h⟩))

/-- Settles O21: in each range the class is known, and the other three conditions are false. -/
theorem classDownRanges : Obligations.ClassDownRanges := by
  intro e
  obtain ⟨_, hc⟩ | ⟨_, _, hc⟩ | ⟨_, _, hc⟩ | ⟨_, hc⟩ := classDown_cases e
  all_goals
    simp only [hc, reduceCtorEq, true_iff, false_iff]
    omega

/-! ### The clamp (R74) -/

theorem rebiasDown_eq_max_min (e : Int) : (rebiasDown e : Int) = max 0 (min 31 (e + 15)) := by
  rw [rebiasDown, clamp_eq_max_min _ _ _ (by simp), half_bias, half_expFieldMax]
  omega

theorem rebiasDown_over {e : Int} (h : 15 < e) : rebiasDown e = 31 := by
  have hclamp := rebiasDown_eq_max_min e
  omega

theorem rebiasDown_normal {e : Int} (h₁ : -14 ≤ e) (h₂ : e ≤ 15) : (rebiasDown e : Int) = e + 15 := by
  rw [rebiasDown_eq_max_min]
  omega

theorem rebiasDown_below {e : Int} (h : e < -14) : rebiasDown e = 0 := by
  have hclamp := rebiasDown_eq_max_min e
  omega

/-! ### Rounding on the packer's two paths (R83) -/

/-- Rounding away `sh` of `sh + n` bits leaves `n` bits, or the `2^n` of a carry out of them. -/
theorem round10_le_two_pow {v sh n : Nat} (h : v < 2 ^ (sh + n)) : round10 v sh ≤ 2 ^ n := by
  have hkept : roundKept v sh < 2 ^ n := by
    rw [roundKept_eq_div, Nat.div_lt_iff_lt_mul (Nat.two_pow_pos _), ← pow_add, Nat.add_comm]
    exact h
  have hinc := roundInc_le_one v sh
  unfold round10
  omega

theorem round10_normal_le {F : Format} {f : Nat} (hf : f < 2 ^ F.sigBits) :
    round10 f (F.sigBits - Config.keptBits) ≤ 2 ^ 10 :=
  round10_le_two_pow (hf.trans_le (Nat.pow_le_pow_right two_pos (Nat.sub_le_iff_le_add.mp le_rfl)))

theorem subshift_ge {e : Int} (M : Nat) (h : e ≤ -15) : M + 1 ≤ subshift e M + 10 := by
  rw [subshift, emin16_eq, show Config.keptBits = 10 from rfl]
  omega

theorem round10_sub_le {F : Format} {f : Nat} {e : Int} (hf : f < 2 ^ F.sigBits) (h : e ≤ -15) :
    round10 (implicitBit F + f) (subshift e F.sigBits) ≤ 2 ^ 10 := by
  refine round10_le_two_pow ?_
  calc implicitBit F + f < 2 ^ F.sigBits + 2 ^ F.sigBits := Nat.add_lt_add_left hf _
    _ = 2 ^ (F.sigBits + 1) := by rw [pow_succ, Nat.mul_two]
    _ ≤ 2 ^ (subshift e F.sigBits + 10) := Nat.pow_le_pow_right two_pos (subshift_ge F.sigBits h)

/-! ### The exponent field of each packer case (R93 to R97) -/

/-- What stands below the sign bit is an exponent field and a 10-bit significand field, whatever the sign. -/
theorem expField_packSign_or (s : Nat) {x : Nat} (hx : x < 2 ^ 15) :
    expField Config.half (packSign s ||| x) = x / 2 ^ 10 := by
  rw [packSign, show signShift Config.half = 15 from rfl, ← Nat.shiftLeft_add_eq_or_of_lt hx, Nat.shiftLeft_eq,
    expField_eq_div_mod, half_sigBits, half_expBits]
  omega

theorem expField_packSign (s : Nat) : expField Config.half (packSign s) = 0 := by
  simpa using expField_packSign_or s (x := 0) (by decide)

theorem expField_packOver {n : Nat} (hn : n < 2 ^ 10) (F : Format) (s ef f : Nat) :
    expField Config.half (packOver n F s ef f) = 31 := by
  have hnan : infField16 ||| n = infField16 + n := (Nat.shiftLeft_add_eq_or_of_lt (a := 31) hn).symm
  have hinf : infField16 = 31 * 2 ^ 10 := by decide
  unfold packOver
  split
  · rw [Nat.or_assoc, hnan, hinf, expField_packSign_or s (by omega)]
    omega
  · rw [hinf, expField_packSign_or s (by decide), Nat.mul_div_cancel _ (Nat.two_pow_pos 10)]

/-- The carry of a rounding result of 1024 is the one that may be added to the exponent field. -/
theorem expField_packSign_or_add (s : Nat) {E r : Nat} (hE : E ≤ 30) (hr : r ≤ 2 ^ 10) :
    expField Config.half (packSign s ||| ((E <<< 10) + r)) = E ∨
    expField Config.half (packSign s ||| ((E <<< 10) + r)) = E + 1 := by
  rw [Nat.shiftLeft_eq, expField_packSign_or s (by omega)]
  omega

theorem expField_packNormal {F : Format} {f : Nat} {e : Int} (s : Nat) (hf : f < 2 ^ F.sigBits) (h₁ : -14 ≤ e)
    (h₂ : e ≤ 15) :
    expField Config.half (packNormal F s e f) = rebiasDown e ∨
    expField Config.half (packNormal F s e f) = rebiasDown e + 1 := by
  have hfield := rebiasDown_normal h₁ h₂
  exact expField_packSign_or_add s (by omega) (round10_normal_le hf)

theorem expField_packSub {F : Format} {f : Nat} {e : Int} (s : Nat) (hf : f < 2 ^ F.sigBits) (h : e ≤ -15) :
    expField Config.half (packSub F s e f) = 0 ∨ expField Config.half (packSub F s e f) = 1 := by
  simpa [packSub] using expField_packSign_or_add s (E := 0) (by decide) (round10_sub_le hf h)

theorem unbiasedExp_of_expField_zero {F : Format} {a : Nat} (h : expField F a = 0) :
    unbiasedExp F a = -(F.bias : Int) := by
  rw [unbiasedExp, h]
  omega

theorem bias_ge_of_isWide {F : Format} (h : IsWide F) : 127 ≤ F.bias := by
  obtain rfl | rfl := h <;> decide

/-- The packer's exponent field is the clamped one, or one more where rounding carries. -/
theorem expField_pack {F : Format} (hF : IsWide F) (a : Nat) :
    expField Config.half (pack F a) = rebiasDown (unbiasedExp F a) ∨
    expField Config.half (pack F a) = rebiasDown (unbiasedExp F a) + 1 := by
  have hf := sigField_lt F a
  by_cases hz : expField F a = 0 ∧ sigField F a = 0
  · obtain ⟨he, hs⟩ := hz
    have hbias := bias_ge_of_isWide hF
    have hbelow : unbiasedExp F a < -14 := by
      rw [unbiasedExp_of_expField_zero he]
      omega
    rw [pack, packWith_zero he hs, expField_packSign, rebiasDown_below hbelow]
    exact .inl rfl
  · obtain ⟨h, -⟩ | ⟨h₁, h₂, -⟩ | ⟨h₁, h₂, -⟩ | ⟨h, -⟩ := classDown_cases (unbiasedExp F a)
    · rw [pack, packWith_over hz h, expField_packOver (by decide), rebiasDown_over h]
      exact .inl rfl
    · rw [pack, packWith_normal hz h₁ h₂]
      exact expField_packNormal _ hf h₁ h₂
    · rw [pack, packWith_sub hz h₁ h₂, rebiasDown_below (by omega)]
      exact expField_packSub _ hf h₂
    · rw [pack, packWith_tiny h, expField_packSign, rebiasDown_below (by omega)]
      exact .inl rfl

/-- Settles O20: the clamp as a maximum and minimum, read in its three regions, and the packer's field case by case. -/
theorem rebiasDownIsTheResultField : Obligations.RebiasDownIsTheResultField := by
  refine ⟨fun e => ⟨rebiasDown_eq_max_min e, rebiasDown_over, fun h₁ h₂ => ?_, rebiasDown_below⟩,
    fun F a hF _ => expField_pack hF a⟩
  have hfield := rebiasDown_normal h₁ h₂
  exact ⟨hfield, by omega, by omega⟩

/-! ### The class of a pattern, by its fields -/

theorem classify_eq_zero_iff {F : Format} {a : Nat} :
    classify F a = .zero ↔ expField F a = 0 ∧ sigField F a = 0 := by
  unfold classify
  split_ifs <;> simp_all

theorem classify_eq_subnormal_iff {F : Format} {a : Nat} :
    classify F a = .subnormal ↔ expField F a = 0 ∧ sigField F a ≠ 0 := by
  unfold classify
  split_ifs <;> simp_all

theorem classify_eq_normal_iff {F : Format} {a : Nat} :
    classify F a = .normal ↔ expField F a ≠ 0 ∧ expField F a ≠ F.expFieldMax := by
  unfold classify
  split_ifs <;> simp_all

theorem expField_of_infinity_or_nan {F : Format} {a : Nat} (h : classify F a = .infinity ∨ classify F a = .nan) :
    expField F a = F.expFieldMax := by
  unfold classify at h
  split_ifs at h <;> simp_all

/-! ### The priority encoder (R108) -/

/-- The priority encoder over bits `k` down to 0. -/
def leadposFrom : Nat → Nat → Nat
  | 0, _ => 0
  | k + 1, f => if f.testBit (k + 1) then k + 1 else leadposFrom k f

theorem leadpos_eq_leadposFrom (f : Nat) : leadpos f = leadposFrom 9 f := rfl

theorem leadposFrom_eq_log2 {k f : Nat} (h0 : f ≠ 0) (h : f < 2 ^ (k + 1)) : leadposFrom k f = Nat.log2 f := by
  induction k with
  | zero =>
    obtain rfl : f = 1 := by omega
    rfl
  | succ k ih =>
    rw [leadposFrom]
    split
    next hbit => exact ((Nat.log2_eq_iff h0).mpr ⟨Nat.ge_two_pow_of_testBit hbit, h⟩).symm
    next hbit =>
      refine ih (Nat.lt_pow_two_of_testBit f fun i hi => ?_)
      obtain rfl | hlt := hi.eq_or_lt
      · simpa using hbit
      · exact Nat.testBit_lt_two_pow (h.trans_le (Nat.pow_le_pow_right two_pos hlt))

theorem leadpos_eq_topBit {f : Nat} (h0 : f ≠ 0) (h : f < 2 ^ 10) : leadpos f = topBit f :=
  (leadpos_eq_leadposFrom f).trans (leadposFrom_eq_log2 h0 h)

/-! ### The exponent field of each unpacker case (R107 to R111) -/

theorem expField_assemble {F : Format} {s ef f : Nat} (hs : s ≤ 1) (he : ef < 2 ^ F.expBits)
    (hf : f < 2 ^ F.sigBits) : expField F (assemble F s ef f) = ef := by
  obtain ⟨-, hexp, -⟩ := fields_of_sum F s ef f hs he hf
  rw [assemble_eq_add F s ef f he hf, hexp]

theorem keptBits_le_sigBits {F : Format} (hF : IsWide F) : 10 ≤ F.sigBits := by
  obtain rfl | rfl := hF <;> decide

theorem toWideSig_lt {F : Format} {x : Nat} (hF : IsWide F) (hx : x < 2 ^ 10) : toWideSig F x < 2 ^ F.sigBits := by
  rw [toWideSig, Nat.shiftLeft_eq, ← pow_mul_pow_sub 2 (keptBits_le_sigBits hF)]
  exact Nat.mul_lt_mul_of_pos_right hx (Nat.two_pow_pos _)

theorem rebiasUp_single (E16 : Nat) : rebiasUp E16 Config.single = E16 + 112 := by
  simp only [rebiasUp, half_bias, single_bias]
  omega

theorem rebiasUp_double (E16 : Nat) : rebiasUp E16 Config.double = E16 + 1008 := by
  simp only [rebiasUp, half_bias, double_bias]
  omega

theorem rebiasUpSub_single (p : Nat) : rebiasUpSub p Config.single = p + 103 := by
  simp only [rebiasUpSub, esub16_eq, single_bias]
  omega

theorem rebiasUpSub_double (p : Nat) : rebiasUpSub p Config.double = p + 999 := by
  simp only [rebiasUpSub, esub16_eq, double_bias]
  omega

theorem rebiasUp_lt {F : Format} (hF : IsWide F) {E16 : Nat} (h : E16 ≤ 31) : rebiasUp E16 F < 2 ^ F.expBits := by
  obtain rfl | rfl := hF
  · rw [rebiasUp_single, single_expBits]
    omega
  · rw [rebiasUp_double, double_expBits]
    omega

theorem rebiasUpSub_lt {F : Format} (hF : IsWide F) {p : Nat} (h : p ≤ 9) : rebiasUpSub p F < 2 ^ F.expBits := by
  obtain rfl | rfl := hF
  · rw [rebiasUpSub_single, single_expBits]
    omega
  · rw [rebiasUpSub_double, double_expBits]
    omega

section Unpacked

variable {F : Format} {h : Nat}

theorem expField_unpack_of_zero (hc : classify Config.half h = .zero) : expField F (unpack F h) = 0 := by
  obtain ⟨he, hf⟩ := classify_eq_zero_iff.mp hc
  rw [unpack_zero he hf]
  exact expField_assemble (signField_le_one _ h) (Nat.two_pow_pos _) (Nat.two_pow_pos _)

theorem expField_unpack_of_subnormal (hF : IsWide F) (hc : classify Config.half h = .subnormal) :
    expField F (unpack F h) = rebiasUpSub (topBit (sigField Config.half h)) F := by
  obtain ⟨he, hf⟩ := classify_eq_subnormal_iff.mp hc
  have hlt : sigField Config.half h < 2 ^ 10 := sigField_lt Config.half h
  have htop : topBit (sigField Config.half h) ≤ 9 := Nat.le_of_lt_succ ((Nat.log2_lt hf).mpr hlt)
  rw [unpack_sub he hf, unpackSub, leadpos_eq_topBit hf hlt]
  exact expField_assemble (signField_le_one _ h) (rebiasUpSub_lt hF htop)
    (toWideSig_lt hF (sigField_lt Config.half _))

theorem expField_unpack_of_normal (hF : IsWide F) (hc : classify Config.half h = .normal) :
    expField F (unpack F h) = rebiasUp (expField Config.half h) F := by
  obtain ⟨h₁, h₂⟩ := classify_eq_normal_iff.mp hc
  rw [unpack_normal h₁ h₂]
  exact expField_assemble (signField_le_one _ h) (rebiasUp_lt hF (Nat.le_of_lt_succ (expField_lt Config.half h)))
    (toWideSig_lt hF (sigField_lt Config.half h))

theorem expField_unpack_of_infinity_or_nan (hF : IsWide F)
    (hc : classify Config.half h = .infinity ∨ classify Config.half h = .nan) :
    expField F (unpack F h) = F.expFieldMax := by
  rw [unpack_special (expField_of_infinity_or_nan hc)]
  exact expField_assemble (signField_le_one _ h) (Nat.sub_lt (Nat.two_pow_pos _) one_pos)
    (toWideSig_lt hF (sigField_lt Config.half h))

end Unpacked

/-- Settles O24, class by class: the unpacker's field for any wide format, then the two formats in numbers. -/
theorem halfToWideExponentMap : Obligations.HalfToWideExponentMap := by
  have hs : IsWide Config.single := .inl rfl
  have hd : IsWide Config.double := .inr rfl
  intro h _
  refine ⟨fun hc => ?zero, fun hc => ?subnormal, fun hc => ?normal, fun hc => ?special⟩
  case zero =>
    exact ⟨(classify_eq_zero_iff.mp hc).1, expField_unpack_of_zero hc, expField_unpack_of_zero hc⟩
  case subnormal =>
    rw [expField_unpack_of_subnormal hs hc, expField_unpack_of_subnormal hd hc, rebiasUpSub_single,
      rebiasUpSub_double]
    exact ⟨(classify_eq_subnormal_iff.mp hc).1, rfl, rfl⟩
  case normal =>
    obtain ⟨h₁, h₂⟩ := classify_eq_normal_iff.mp hc
    have hlt := expField_lt Config.half h
    rw [half_expFieldMax] at h₂
    rw [half_expBits] at hlt
    rw [expField_unpack_of_normal hs hc, expField_unpack_of_normal hd hc, rebiasUp_single, rebiasUp_double]
    exact ⟨by omega, by omega, rfl, rfl⟩
  case special =>
    rw [expField_unpack_of_infinity_or_nan hs hc, expField_unpack_of_infinity_or_nan hd hc]
    exact ⟨expField_of_infinity_or_nan hc, rfl, rfl⟩

end Sys2Proof.Machine
end

section
/-! SUPPORT. The packer (42_packer.md R91 to R100): its equation as one choice over the fields of the operand, the
operands that land on a signed zero or an infinity, and the statements O28, O29, O30 and O33. -/

namespace Sys2Proof.Machine

open Sys2Proof.Rules

/-! ### Signed zeros (R93, R96) -/

theorem pack_of_tiny {F : Format} {a : Nat} (h : unbiasedExp F a < -24) : pack F a = packSign (signField F a) :=
  packWith_tiny h

/-- A wide operand with exponent field 0, a zero or a subnormal, lies far below the half range. -/
theorem unbiasedExp_lt_of_expField_zero {F : Format} (hF : IsWide F) {a : Nat} (h : expField F a = 0) :
    unbiasedExp F a < -24 := by
  have hbias := bias_ge_of_isWide hF
  rw [unbiasedExp_of_expField_zero h]
  omega

theorem pack_of_expField_zero {F : Format} (hF : IsWide F) {a : Nat} (h : expField F a = 0) :
    pack F a = packSign (signField F a) :=
  pack_of_tiny (unbiasedExp_lt_of_expField_zero hF h)

/-- Settles O30: exponent field 0 is the case tiny, whatever the significand field. -/
theorem packZeroAndTinyGiveSignedZero : Obligations.PackZeroAndTinyGiveSignedZero := by
  intro F a hF _
  refine ⟨fun he _ => ?_, pack_of_tiny, fun he => ⟨unbiasedExp_of_expField_zero he, pack_of_expField_zero hF he⟩⟩
  rw [pack_of_expField_zero hF he]
  exact ⟨rfl, fun hs => by rw [hs]; rfl, fun hs => by rw [hs]; rfl⟩

/-! ### The normal range (R97) -/

theorem not_zero_of_unbiasedExp_ge {F : Format} (hF : IsWide F) {a : Nat} (h : -24 ≤ unbiasedExp F a) :
    ¬(expField F a = 0 ∧ sigField F a = 0) := fun ⟨he, _⟩ =>
  absurd (unbiasedExp_lt_of_expField_zero hF he) (not_lt.mpr h)

theorem pack_of_normal {F : Format} (hF : IsWide F) {a : Nat} (h₁ : -14 ≤ unbiasedExp F a)
    (h₂ : unbiasedExp F a ≤ 15) :
    pack F a = packNormal F (signField F a) (unbiasedExp F a) (sigField F a) :=
  packWith_normal (not_zero_of_unbiasedExp_ge hF (by omega)) h₁ h₂

/-- A rounding result of 1024, added in place, is one unit of the exponent field. -/
theorem expField_carry (E : Nat) : (E <<< 10) + 1024 = (E + 1) <<< 10 := by
  rw [Nat.shiftLeft_eq, Nat.shiftLeft_eq, Nat.add_mul]

/-- Settles O33: the exponent field is the rebiased one, at most 30, and a carry at 30 gives 31, that of
the infinity. -/
theorem packNormalRange : Obligations.PackNormalRange := by
  intro F a hF _ h₁ h₂
  have hE := rebiasDown_normal h₁ h₂
  have hr : round10 (sigField F a) (F.sigBits - 10) ≤ 1024 := round10_normal_le (sigField_lt F a)
  have hpack : pack F a = (signField F a <<< 15) |||
      ((rebiasDown (unbiasedExp F a) <<< 10) + round10 (sigField F a) (F.sigBits - 10)) := pack_of_normal hF h₁ h₂
  refine ⟨_, _, hE, by omega, by omega, rfl, hr, ?sum, hpack, fun hcarry => ?carry, fun hlast hcarry => ?infinity⟩
  case sum =>
    rw [Nat.shiftLeft_eq]
    omega
  case carry => rw [hpack, hcarry, expField_carry]
  case infinity => rw [hpack, hcarry, hlast]; rfl

/-! ### The packer as one choice over the fields (R99, R100) -/

theorem packOver_eq (F : Format) (s ef f : Nat) :
    packOver Config.nan16Sig F s ef f =
      if ef = F.expFieldMax ∧ f ≠ 0 then packSign s ||| 0x7E00 else packSign s ||| 0x7C00 := by
  rw [packOver, Nat.or_assoc]
  rfl

/-- The sign read by shift and then mask, as the pseudocode has it. -/
theorem signField_eq_shiftRight_and (F : Format) (a : Nat) :
    signField F a = (a >>> (F.expBits + F.sigBits)) &&& 1 := by
  rw [signField_eq_div_mod, Nat.shiftRight_eq_div_pow, Nat.and_one_is_mod]

/-- The implicit bit stands above the significand field. -/
theorem implicitBit_or {F : Format} {f : Nat} (hf : f < 2 ^ F.sigBits) : implicitBit F ||| f = implicitBit F + f := by
  simpa [implicitBit, Nat.shiftLeft_eq] using (Nat.shiftLeft_add_eq_or_of_lt hf 1).symm

theorem rebiasDown_eq_toNat {e : Int} (h₁ : -14 ≤ e) (h₂ : e ≤ 15) : rebiasDown e = (e + 15).toNat := by
  have hE := rebiasDown_normal h₁ h₂
  omega

/-- The pseudocode that R99 and R100 share, in the order in which they test the operand. -/
theorem pack_eq_ite (F : Format) (a : Nat) :
    pack F a =
      if expField F a = 0 ∧ sigField F a = 0 then packSign (signField F a)
      else if unbiasedExp F a > 15 then packOver Config.nan16Sig F (signField F a) (expField F a) (sigField F a)
      else if unbiasedExp F a ≥ -24 ∧ unbiasedExp F a ≤ -15 then
        packSign (signField F a) ||| round10 (implicitBit F ||| sigField F a) (subshift (unbiasedExp F a) F.sigBits)
      else if unbiasedExp F a < -24 then packSign (signField F a)
      else packSign (signField F a) |||
        (((unbiasedExp F a + 15).toNat <<< 10) + round10 (sigField F a) (F.sigBits - 10)) := by
  split_ifs with hz hover hsub htiny
  · exact packWith_zero hz.1 hz.2
  · exact packWith_over hz hover
  · rw [implicitBit_or (sigField_lt F a)]
    exact packWith_sub hz hsub.1 hsub.2
  · exact packWith_tiny htiny
  · rw [← rebiasDown_eq_toNat (by omega) (by omega)]
    exact packWith_normal hz (by omega) (by omega)

theorem pack_single (a : Nat) : pack Config.single a = Rules.pack32 a := by
  rw [pack_eq_ite, packOver_eq, signField_eq_shiftRight_and]
  rfl

theorem pack_double (a : Nat) : pack Config.double a = Rules.pack64 a := by
  rw [pack_eq_ite, packOver_eq, signField_eq_shiftRight_and]
  rfl

theorem exec_pack32 (s : State) : exec .pack32 s = answers s (BitVec.ofNat 64 (Rules.pack32 (low 32 s.a))) := by
  rw [← operand32_toNat_eq_low, ← pack_single]
  rfl

theorem exec_pack64 (s : State) : exec .pack64 s = answers s (BitVec.ofNat 64 (Rules.pack64 s.a.toNat)) := by
  rw [← pack_double]
  rfl

/-! ### A magnitude under either sign -/

/-- The fields of a sign over a magnitude. -/
theorem fields_of_sign_add {F : Format} {s a : Nat} (hs : s ≤ 1) (ha : a < 2 ^ (F.expBits + F.sigBits)) :
    signField F (s * 2 ^ (F.expBits + F.sigBits) + a) = s ∧
    expField F (s * 2 ^ (F.expBits + F.sigBits) + a) = a / 2 ^ F.sigBits ∧
    sigField F (s * 2 ^ (F.expBits + F.sigBits) + a) = a % 2 ^ F.sigBits := by
  have hdiv : a / 2 ^ F.sigBits < 2 ^ F.expBits := by
    rwa [Nat.div_lt_iff_lt_mul (Nat.two_pow_pos _), ← pow_add]
  have hfields := fields_of_sum F s _ _ hs hdiv (Nat.mod_lt a (Nat.two_pow_pos F.sigBits))
  rwa [Nat.add_assoc, Nat.div_add_mod'] at hfields

/-- Every wide subnormal, and the zero, packs to the zero of its sign. -/
theorem pack_of_lt {F : Format} (hF : IsWide F) {f : Nat} (hf : f < 2 ^ F.sigBits) {s : Nat} (hs : s ≤ 1) :
    pack F (s * 2 ^ (F.expBits + F.sigBits) + f) = packSign s := by
  obtain ⟨hsign, hexp, -⟩ := fields_of_sign_add (F := F) hs
    (hf.trans_le (Nat.pow_le_pow_right two_pos (Nat.le_add_left _ _)))
  rw [Nat.div_eq_of_lt hf] at hexp
  rw [pack_of_expField_zero hF hexp, hsign]

/-- Every magnitude from `2^16` to the infinity packs to the infinity of its sign. -/
theorem pack_of_ge {F : Format} {a : Nat} (h₁ : (F.bias + 16) * 2 ^ F.sigBits ≤ a)
    (h₂ : a ≤ F.expFieldMax * 2 ^ F.sigBits) {s : Nat} (hs : s ≤ 1) :
    pack F (s * 2 ^ (F.expBits + F.sigBits) + a) = packSign s ||| 0x7C00 := by
  have hlt : a < 2 ^ (F.expBits + F.sigBits) := by
    rw [pow_add]
    exact h₂.trans_lt (Nat.mul_lt_mul_of_pos_right (Nat.sub_lt (Nat.two_pow_pos _) one_pos) (Nat.two_pow_pos _))
  obtain ⟨hsign, hexp, hsig⟩ := fields_of_sign_add hs hlt
  have hge : F.bias + 16 ≤ a / 2 ^ F.sigBits := (Nat.le_div_iff_mul_le (Nat.two_pow_pos _)).mpr h₁
  have hover : 15 < unbiasedExp F (s * 2 ^ (F.expBits + F.sigBits) + a) := by
    rw [unbiasedExp, hexp]
    omega
  have hnumber : ¬(a / 2 ^ F.sigBits = F.expFieldMax ∧ a % 2 ^ F.sigBits ≠ 0) := by
    rintro ⟨hmax, hne⟩
    have hsum := Nat.div_add_mod' a (2 ^ F.sigBits)
    rw [hmax] at hsum
    omega
  rw [pack, packWith_over (by rw [hexp]; omega) hover, packOver_eq, hsign, hexp, hsig, if_neg hnumber]

theorem pack_both_signs {F : Format} {a : Nat} {y : Nat → Nat}
    (h : ∀ {s : Nat}, s ≤ 1 → pack F (s * 2 ^ (F.expBits + F.sigBits) + a) = y s) :
    pack F a = y 0 ∧ pack F (2 ^ (F.expBits + F.sigBits) + a) = y 1 :=
  ⟨by simpa using h zero_le_one, by simpa using h le_rfl⟩

theorem pack_subnormal_both {F : Format} {f : Nat} (hF : IsWide F) (hf : f < 2 ^ F.sigBits) :
    pack F f = 0x0000 ∧ pack F (2 ^ (F.expBits + F.sigBits) + f) = 0x8000 :=
  pack_both_signs (y := packSign) (pack_of_lt hF hf)

theorem pack_infinity_both {F : Format} {a : Nat} (h₁ : (F.bias + 16) * 2 ^ F.sigBits ≤ a)
    (h₂ : a ≤ F.expFieldMax * 2 ^ F.sigBits) :
    pack F a = 0x7C00 ∧ pack F (2 ^ (F.expBits + F.sigBits) + a) = 0xFC00 :=
  pack_both_signs (y := fun s => packSign s ||| 0x7C00) (pack_of_ge h₁ h₂)

/-- Settles O28: the packer at the single format is the pseudocode, whose corners are computed. -/
theorem pack32Result : Obligations.Pack32Result := by
  refine ⟨rfl, exec_pack32, by decide, fun a h₁ h₂ => ?_, fun f _ hf => ?_⟩
  · rw [← pack_single, ← pack_single]
    exact pack_infinity_both h₁ h₂
  · rw [← pack_single, ← pack_single]
    exact pack_subnormal_both (.inl rfl) hf

/-- Settles O29: the packer at the double format is the pseudocode, whose corners are computed. -/
theorem pack64Result : Obligations.Pack64Result := by
  refine ⟨rfl, exec_pack64, by decide, fun a h₁ h₂ => ?_, fun f _ hf => ?_⟩
  · rw [← pack_double, ← pack_double]
    exact pack_infinity_both h₁ h₂
  · rw [← pack_double, ← pack_double]
    exact pack_subnormal_both (.inr rfl) hf

end Sys2Proof.Machine
end

section
/-! SUPPORT. The unpacker (43_unpacker.md R105 to R114): every result as three assembled fields, its equation as one
choice over the fields of the operand, and the statements O40 to O43. -/

namespace Sys2Proof.Machine

open Sys2Proof.Rules

/-! ### The leading 1 bit (R108) -/

theorem topBit_le_nine {f : Nat} (h0 : f ≠ 0) (h : f < 2 ^ 10) : topBit f ≤ 9 :=
  Nat.le_of_lt_succ ((Nat.log2_lt h0).mpr h)

/-- Settles O42: the priority encoder is the base-2 logarithm. -/
theorem leadposIsTheTopOneBit : Obligations.LeadposIsTheTopOneBit := by
  intro f hge hle
  have h0 : f ≠ 0 := Nat.one_le_iff_ne_zero.mp hge
  have hlt : f < 2 ^ 10 := Nat.lt_succ_of_le hle
  rw [leadpos_eq_topBit h0 hlt]
  exact ⟨topBit_le_nine h0 hlt, Nat.testBit_log2 h0,
    fun q _ hq => (Nat.le_log2 h0).mpr (Nat.ge_two_pow_of_testBit hq), Nat.log2_self_le h0, Nat.lt_log2_self⟩

/-! ### Assembly (R112) -/

theorem signField_assemble {F : Format} {s ef f : Nat} (hs : s ≤ 1) (he : ef < 2 ^ F.expBits)
    (hf : f < 2 ^ F.sigBits) : signField F (assemble F s ef f) = s := by
  obtain ⟨hsign, -, -⟩ := fields_of_sum F s ef f hs he hf
  rw [assemble_eq_add F s ef f he hf, hsign]

theorem assemble_lt {F : Format} {s ef f : Nat} (hs : s ≤ 1) (he : ef < 2 ^ F.expBits) (hf : f < 2 ^ F.sigBits) :
    assemble F s ef f < 2 ^ F.width := by
  have hw : F.expBits + F.sigBits + 1 = F.width := by
    unfold Format.width
    omega
  have hmag : ef * 2 ^ F.sigBits + f < 2 ^ (F.expBits + F.sigBits) := by
    rw [pow_add, Nat.mul_comm ef]
    exact Nat.mul_add_lt_mul_of_lt_of_lt he hf
  have hsign := Nat.mul_le_mul_right (2 ^ (F.expBits + F.sigBits)) hs
  rw [assemble_eq_add F s ef f he hf, ← hw, pow_succ]
  omega

theorem two_pow_dvd_toWideSig (F : Format) (x : Nat) : 2 ^ (F.sigBits - 10) ∣ toWideSig F x := by
  rw [toWideSig, Nat.shiftLeft_eq]
  exact Nat.dvd_mul_left _ _

/-- Every case assembles the operand's sign, a wide exponent field and ten significand bits at the top of the wide
field. -/
theorem unpack_eq_assemble {F : Format} (hF : IsWide F) (h : Nat) :
    ∃ we x, we < 2 ^ F.expBits ∧ x < 2 ^ 10 ∧
      unpack F h = assemble F (signField Config.half h) we (toWideSig F x) := by
  have hsig : sigField Config.half h < 2 ^ 10 := sigField_lt Config.half h
  by_cases he : expField Config.half h = 0
  · by_cases hf : sigField Config.half h = 0
    · refine ⟨0, 0, Nat.two_pow_pos _, Nat.two_pow_pos _, ?_⟩
      rw [unpack_zero he hf, toWideSig, Nat.zero_shiftLeft]
    · refine ⟨_, _, rebiasUpSub_lt hF ?_, sigField_lt Config.half _, unpack_sub he hf⟩
      rw [leadpos_eq_topBit hf hsig]
      exact topBit_le_nine hf hsig
  · by_cases hs : expField Config.half h = 31
    · exact ⟨_, _, Nat.sub_lt (Nat.two_pow_pos _) one_pos, hsig, unpack_special hs⟩
    · exact ⟨_, _, rebiasUp_lt hF (Nat.le_of_lt_succ (expField_lt Config.half h)), hsig, unpack_normal he hs⟩

theorem unpack_lt {F : Format} (hF : IsWide F) (h : Nat) : unpack F h < 2 ^ F.width := by
  obtain ⟨we, x, hwe, hx, hu⟩ := unpack_eq_assemble hF h
  rw [hu]
  exact assemble_lt (signField_le_one _ h) hwe (toWideSig_lt hF hx)

/-- The low `M - 10` bits of every result are 0. -/
theorem unpack_mod_eq_zero {F : Format} (hF : IsWide F) (h : Nat) : unpack F h % 2 ^ (F.sigBits - 10) = 0 := by
  obtain ⟨we, x, hwe, hx, hu⟩ := unpack_eq_assemble hF h
  rw [hu, assemble_eq_add F _ _ _ hwe (toWideSig_lt hF hx), pow_add, ← Nat.mul_assoc, ← Nat.add_mul]
  exact Nat.mod_eq_zero_of_dvd (Nat.dvd_add (Nat.dvd_mul_left_of_dvd (pow_dvd_pow 2 (Nat.sub_le _ _)) _)
    (two_pow_dvd_toWideSig F x))

/-- Settles O43: the fields are those of the case that applies, and in range they add up. -/
theorem unpackAssembly : Obligations.UnpackAssembly := by
  intro F h hF _
  obtain ⟨we, x, hwe, hx, hu⟩ := unpack_eq_assemble hF h
  have hwf := toWideSig_lt hF hx
  have hw : F.width - 1 = F.expBits + F.sigBits := by
    unfold Format.width
    omega
  rw [hu, hw]
  exact ⟨we, toWideSig F x, hwe, hwf, rfl, assemble_eq_add F _ _ _ hwe hwf,
    Nat.mod_eq_zero_of_dvd (two_pow_dvd_toWideSig F x), signField_assemble (signField_le_one _ h) hwe hwf⟩

/-! ### The unpacker as one choice over the fields (R113, R114) -/

theorem assemble_sign (F : Format) (s : Nat) : assemble F s 0 0 = s <<< signShift F := by
  simp [assemble]

/-- The pseudocode that R113 and R114 share, in the order in which they test the operand. -/
theorem unpack_eq_ite (F : Format) (h : Nat) :
    unpack F h =
      if expField Config.half h = 0 ∧ sigField Config.half h = 0 then signField Config.half h <<< signShift F
      else if expField Config.half h = 0 then
        assemble F (signField Config.half h) (rebiasUpSub (topBit (sigField Config.half h)) F)
          (toWideSig F ((sigField Config.half h <<< (10 - topBit (sigField Config.half h))) &&& sigMask Config.half))
      else if expField Config.half h = 31 then
        assemble F (signField Config.half h) F.expFieldMax (toWideSig F (sigField Config.half h))
      else assemble F (signField Config.half h) (rebiasUp (expField Config.half h) F)
        (toWideSig F (sigField Config.half h)) := by
  split_ifs with hz he hs
  · obtain ⟨he, hf⟩ := hz
    rw [unpack_zero he hf, assemble_sign]
  · have hf : sigField Config.half h ≠ 0 := fun hf => hz ⟨he, hf⟩
    rw [unpack_sub he hf, unpackSub, leadpos_eq_topBit hf (sigField_lt Config.half h)]
  · exact unpack_special hs
  · exact unpack_normal he hs

theorem unpack_single (h : Nat) : unpack Config.single h = Rules.unpack32 h := by
  rw [unpack_eq_ite, rebiasUpSub_single, rebiasUp_single, signField_eq_shiftRight_and]
  rfl

theorem unpack_double (h : Nat) : unpack Config.double h = Rules.unpack64 h := by
  rw [unpack_eq_ite, rebiasUpSub_double, rebiasUp_double, signField_eq_shiftRight_and]
  rfl

theorem operand16_toNat_eq_low (a : Word) : (operand16 a).toNat = low 16 a := operand16_toNat a

theorem exec_unpack32 (s : State) : exec .unpack32 s = answers s (BitVec.ofNat 64 (Rules.unpack32 (low 16 s.a))) := by
  rw [← operand16_toNat_eq_low, ← unpack_single]
  rfl

theorem exec_unpack64 (s : State) : exec .unpack64 s = answers s (BitVec.ofNat 64 (Rules.unpack64 (low 16 s.a))) := by
  rw [← operand16_toNat_eq_low, ← unpack_double]
  rfl

/-- Settles O40: the unpacker at the single format is the pseudocode, whose corners are computed. -/
theorem unpack32Result : Obligations.Unpack32Result := by
  refine ⟨rfl, exec_unpack32, by decide, fun h _ => ?_⟩
  rw [← unpack_single]
  exact ⟨unpack_mod_eq_zero (.inl rfl) h, unpack_lt (.inl rfl) h⟩

/-- Settles O41: the unpacker at the double format is the pseudocode, whose corners are computed. -/
theorem unpack64Result : Obligations.Unpack64Result := by
  refine ⟨rfl, exec_unpack64, by decide, fun h _ => ?_⟩
  rw [← unpack_double]
  exact ⟨unpack_mod_eq_zero (.inr rfl) h, unpack_lt (.inr rfl) h⟩

end Sys2Proof.Machine
end

section
/-! SUPPORT. Laws over PACK and UNPACK (44_properties.md): what the packer makes of an unpacked pattern, class by class,
the operands that round up to the infinity, and the statements O46 and O49. -/

namespace Sys2Proof.Machine

open Sys2Proof.Rules

/-! ### The classes infinity and NaN, by fields (R32) -/

theorem classify_eq_infinity_iff {F : Format} {a : Nat} :
    classify F a = .infinity ↔ expField F a ≠ 0 ∧ expField F a = F.expFieldMax ∧ sigField F a = 0 := by
  unfold classify
  split_ifs <;> simp_all

theorem classify_eq_nan_iff {F : Format} {a : Nat} :
    classify F a = .nan ↔ expField F a ≠ 0 ∧ expField F a = F.expFieldMax ∧ sigField F a ≠ 0 := by
  unfold classify
  split_ifs <;> simp_all

theorem keptBits_eq : Config.keptBits = 10 := rfl

theorem expFieldMax_of_isWide {F : Format} (hF : IsWide F) : F.expFieldMax = 2 * F.bias + 1 := by
  rw [Format.expFieldMax, two_pow_expBits_of_isWide hF]
  rfl

/-- The all-ones exponent field is in the packer's case over-range. -/
theorem pack_of_expFieldMax {F : Format} (hF : IsWide F) {a : Nat} (he : expField F a = F.expFieldMax) :
    pack F a = packOver Config.nan16Sig F (signField F a) (expField F a) (sigField F a) := by
  have hbias := bias_ge_of_isWide hF
  have hmax := expFieldMax_of_isWide hF
  have hover : 15 < unbiasedExp F a := by
    rw [unbiasedExp]
    omega
  exact packWith_over (by omega) hover

/-- Every NaN packs to the canonical NaN of its sign (R94). -/
theorem pack_of_nan {F : Format} (hF : IsWide F) {a : Nat} (hc : classify F a = .nan) :
    pack F a = packSign (signField F a) ||| 0x7E00 := by
  obtain ⟨-, he, hf⟩ := classify_eq_nan_iff.mp hc
  rw [pack_of_expFieldMax hF he, packOver_eq, if_pos ⟨he, hf⟩]

/-- Both infinities pack to the infinity of their sign (R94). -/
theorem pack_of_infinity {F : Format} (hF : IsWide F) {a : Nat} (hc : classify F a = .infinity) :
    pack F a = packSign (signField F a) ||| 0x7C00 := by
  obtain ⟨-, he, hf⟩ := classify_eq_infinity_iff.mp hc
  rw [pack_of_expFieldMax hF he, packOver_eq, if_neg fun ⟨_, hne⟩ => hne hf]

/-! ### Half patterns as a sign over fifteen bits -/

theorem packSign_or_eq_add (s : Nat) {x : Nat} (hx : x < 2 ^ 15) : packSign s ||| x = s * 2 ^ 15 + x := by
  rw [← Nat.shiftLeft_eq]
  exact (Nat.shiftLeft_add_eq_or_of_lt hx s).symm

/-- A half pattern, put together from its fields as the packer puts its result together. -/
theorem packSign_or_fields {h : Nat} (hh : h < 2 ^ 16) :
    packSign (signField Config.half h) ||| ((expField Config.half h <<< 10) + sigField Config.half h) = h := by
  have he : expField Config.half h < 2 ^ 5 := expField_lt Config.half h
  have hf : sigField Config.half h < 2 ^ 10 := sigField_lt Config.half h
  rw [Nat.shiftLeft_eq, packSign_or_eq_add _ (by omega), ← Nat.add_assoc]
  exact (eq_sum_of_fields Config.half h hh).symm

/-- The sign bit of a half pattern, in place. -/
theorem packSign_signField (h : Nat) : packSign (signField Config.half h) = h &&& 0x8000 := by
  rw [signField_eq_div_mod, packSign, Nat.shiftLeft_eq, ← Nat.toNat_testBit]
  exact (Nat.and_two_pow h 15).symm

/-- The half NaNs, as two ranges of patterns. -/
theorem classify_half_eq_nan_iff {h : Nat} (hh : h < 2 ^ 16) :
    classify Config.half h = .nan ↔ (0x7C01 ≤ h ∧ h ≤ 0x7FFF) ∨ (0xFC01 ≤ h ∧ h ≤ 0xFFFF) := by
  rw [classify_eq_nan_iff, expField_eq_div_mod, sigField_eq_mod, half_expFieldMax, half_expBits, half_sigBits]
  omega

/-! ### Fields of an assembled pattern -/

section Assembled

variable {F : Format} {s ef f : Nat} (hs : s ≤ 1) (he : ef < 2 ^ F.expBits) (hf : f < 2 ^ F.sigBits)

include hs he hf

theorem sigField_assemble : sigField F (assemble F s ef f) = f := by
  obtain ⟨-, -, hsig⟩ := fields_of_sum F s ef f hs he hf
  rw [assemble_eq_add F s ef f he hf, hsig]

theorem unbiasedExp_assemble : unbiasedExp F (assemble F s ef f) = (ef : Int) - F.bias := by
  rw [unbiasedExp, expField_assemble hs he hf]

/-- The packer on an assembled pattern of the normal range, over the pattern's fields. -/
theorem pack_assemble_of_normal (hF : IsWide F) {e : Int} (hexp : (ef : Int) - F.bias = e) (h₁ : -14 ≤ e)
    (h₂ : e ≤ 15) : pack F (assemble F s ef f) = packNormal F s e f := by
  have hu := (unbiasedExp_assemble hs he hf).trans hexp
  rw [pack_of_normal hF (hu ▸ h₁) (hu ▸ h₂), hu, signField_assemble hs he hf, sigField_assemble hs he hf]

/-- The packer on an assembled pattern of the subnormal range, over the pattern's fields. -/
theorem pack_assemble_of_sub (hF : IsWide F) {e : Int} (hexp : (ef : Int) - F.bias = e) (h₁ : -24 ≤ e)
    (h₂ : e ≤ -15) : pack F (assemble F s ef f) = packSub F s e f := by
  have hu := (unbiasedExp_assemble hs he hf).trans hexp
  rw [pack, packWith_sub (not_zero_of_unbiasedExp_ge hF (hu ▸ h₁)) (hu ▸ h₁) (hu ▸ h₂), hu,
    signField_assemble hs he hf, sigField_assemble hs he hf]

end Assembled

theorem signField_unpack {F : Format} (hF : IsWide F) (h : Nat) :
    signField F (unpack F h) = signField Config.half h := by
  obtain ⟨we, x, hwe, hx, hu⟩ := unpack_eq_assemble hF h
  rw [hu, signField_assemble (signField_le_one _ h) hwe (toWideSig_lt hF hx)]

/-- An infinity or a NaN keeps its significand bits, at the top of the wide field (R110). -/
theorem sigField_unpack_of_infinity_or_nan {F : Format} (hF : IsWide F) {h : Nat}
    (hc : classify Config.half h = .infinity ∨ classify Config.half h = .nan) :
    sigField F (unpack F h) = toWideSig F (sigField Config.half h) := by
  rw [unpack_special (expField_of_infinity_or_nan hc)]
  exact sigField_assemble (signField_le_one _ h) (Nat.sub_lt (Nat.two_pow_pos _) one_pos)
    (toWideSig_lt hF (sigField_lt Config.half h))

theorem toWideSig_eq_zero_iff (F : Format) (x : Nat) : toWideSig F x = 0 ↔ x = 0 := by
  simp [toWideSig, Nat.shiftLeft_eq]

theorem classify_unpack_of_infinity {F : Format} (hF : IsWide F) {h : Nat} (hc : classify Config.half h = .infinity) :
    classify F (unpack F h) = .infinity := by
  obtain ⟨-, -, hf⟩ := classify_eq_infinity_iff.mp hc
  have hmax := expFieldMax_of_isWide hF
  rw [classify_eq_infinity_iff, expField_unpack_of_infinity_or_nan hF (.inl hc),
    sigField_unpack_of_infinity_or_nan hF (.inl hc), toWideSig_eq_zero_iff]
  exact ⟨by omega, rfl, hf⟩

theorem classify_unpack_of_nan {F : Format} (hF : IsWide F) {h : Nat} (hc : classify Config.half h = .nan) :
    classify F (unpack F h) = .nan := by
  obtain ⟨-, -, hf⟩ := classify_eq_nan_iff.mp hc
  have hmax := expFieldMax_of_isWide hF
  rw [classify_eq_nan_iff, expField_unpack_of_infinity_or_nan hF (.inr hc),
    sigField_unpack_of_infinity_or_nan hF (.inr hc), Ne, Ne, toWideSig_eq_zero_iff]
  exact ⟨by omega, rfl, hf⟩

/-! ### Rounding that is exact, and rounding that carries (R81, R82) -/

/-- With nothing below the kept bits there is nothing to round. -/
theorem round10_mul_two_pow (q : Nat) {sh : Nat} (hsh : sh ≠ 0) : round10 (q * 2 ^ sh) sh = q := by
  have hguard : roundGuard (q * 2 ^ sh) sh = 0 := by
    rw [roundGuard_eq, ← Nat.two_pow_pred_mul_two (Nat.pos_of_ne_zero hsh), Nat.mul_left_comm,
      Nat.mul_div_cancel_left _ (Nat.two_pow_pos _), Nat.mul_mod_left]
  rw [round10, roundInc, hguard, Nat.zero_and, Nat.add_zero, roundKept_eq_div,
    Nat.mul_div_cancel _ (Nat.two_pow_pos sh)]

/-- A set guard bit over an odd kept value rounds up, whatever is below the guard. -/
theorem roundInc_of_guard_of_lsb {v sh : Nat} (hg : roundGuard v sh = 1) (hl : roundLsb v sh = 1) :
    roundInc v sh = 1 := by
  rw [roundInc, hg, hl, roundSticky]
  split <;> rfl

/-- From half a unit below `2^n` units on, rounding carries out of the `n` kept bits: the kept bits and the guard are
all ones. -/
theorem round10_carry {v sh n : Nat} (hn : n ≠ 0) (hsh : sh ≠ 0) (hge : 2 ^ (sh + n) ≤ v + 2 ^ (sh - 1))
    (hlt : v < 2 ^ (sh + n)) : round10 v sh = 2 ^ n := by
  obtain ⟨k, rfl⟩ := Nat.exists_eq_succ_of_ne_zero hsh
  obtain ⟨m, rfl⟩ := Nat.exists_eq_succ_of_ne_zero hn
  have hpow : 2 ^ (k + 1 + (m + 1)) = (4 * 2 ^ m) * 2 ^ k := by ring
  rw [hpow] at hge hlt
  have hm : 0 < 2 ^ m := Nat.two_pow_pos m
  have hones : v / 2 ^ k = 4 * 2 ^ m - 1 := by
    have hup : v / 2 ^ k < 4 * 2 ^ m := (Nat.div_lt_iff_lt_mul (Nat.two_pow_pos k)).mpr hlt
    have hlow : 4 * 2 ^ m ≤ v / 2 ^ k + 1 := by
      rw [← Nat.add_div_right _ (Nat.two_pow_pos k)]
      exact (Nat.le_div_iff_mul_le (Nat.two_pow_pos k)).mpr hge
    omega
  have hkept : v / 2 ^ (k + 1) = 2 * 2 ^ m - 1 := by
    rw [pow_succ, ← Nat.div_div_eq_div_mul, hones]
    omega
  have hinc : roundInc v (k + 1) = 1 := by
    refine roundInc_of_guard_of_lsb ?_ ?_
    · rw [roundGuard_eq, Nat.add_sub_cancel, hones]
      omega
    · rw [roundLsb_eq, hkept]
      omega
  rw [round10, roundKept_eq_div, hkept, hinc, pow_succ]
  omega

/-! ### Packing what was unpacked, class by class (R117) -/

/-- The leading 1 of a half subnormal goes to bit 10, where it is the implicit bit. -/
theorem two_pow_add_shifted_sig {f : Nat} (h0 : f ≠ 0) (hf : f < 2 ^ 10) :
    2 ^ 10 + ((f <<< (10 - topBit f)) &&& sigMask Config.half) = f * 2 ^ (10 - topBit f) := by
  have htop : topBit f ≤ 10 := (topBit_le_nine h0 hf).trans (by decide)
  have hlow : 2 ^ 10 ≤ f * 2 ^ (10 - topBit f) := by
    rw [← pow_mul_pow_sub 2 htop]
    exact Nat.mul_le_mul_right _ (Nat.log2_self_le h0)
  have hup : f * 2 ^ (10 - topBit f) < 2 * 2 ^ 10 := by
    rw [← pow_mul_pow_sub 2 htop, ← Nat.mul_assoc, ← pow_succ']
    exact Nat.mul_lt_mul_of_pos_right Nat.lt_log2_self (Nat.two_pow_pos _)
  rw [sigMask, half_sigBits, Nat.and_two_pow_sub_one_eq_mod, Nat.shiftLeft_eq]
  omega

/-- The wide significand of an unpacked subnormal, with its implicit bit, is the half significand moved up. -/
theorem implicitBit_add_toWideSig {F : Format} (hF : IsWide F) {f : Nat} (h0 : f ≠ 0) (hf : f < 2 ^ 10) :
    implicitBit F + toWideSig F ((f <<< (10 - topBit f)) &&& sigMask Config.half) =
      f * 2 ^ (F.sigBits - topBit f) := by
  have hM := keptBits_le_sigBits hF
  have htop := topBit_le_nine h0 hf
  have hexp : F.sigBits - topBit f = (10 - topBit f) + (F.sigBits - 10) := by omega
  rw [implicitBit, toWideSig, Nat.shiftLeft_eq, keptBits_eq, ← pow_mul_pow_sub 2 hM,
    ← Nat.add_mul, two_pow_add_shifted_sig h0 hf, hexp, pow_add, Nat.mul_assoc]

theorem eleven_le_sigBits {F : Format} (hF : IsWide F) : 11 ≤ F.sigBits := by
  obtain rfl | rfl := hF <;> decide

section RoundTrip

variable {F : Format} (hF : IsWide F) {h : Nat}

include hF

theorem pack_unpack_of_zero (hc : classify Config.half h = .zero) :
    pack F (unpack F h) = packSign (signField Config.half h) := by
  rw [pack_of_expField_zero hF (expField_unpack_of_zero hc), signField_unpack hF]

/-- The packer shifts a subnormal back by as much as the unpacker moved it up. -/
theorem pack_unpack_of_subnormal (hc : classify Config.half h = .subnormal) :
    pack F (unpack F h) = packSign (signField Config.half h) ||| sigField Config.half h := by
  obtain ⟨he, hf⟩ := classify_eq_subnormal_iff.mp hc
  have hlt : sigField Config.half h < 2 ^ 10 := sigField_lt Config.half h
  have htop := topBit_le_nine hf hlt
  have hsig : (sigField Config.half h <<< (10 - topBit (sigField Config.half h))) &&& sigMask Config.half < 2 ^ 10 :=
    sigField_lt Config.half _
  have hM := keptBits_le_sigBits hF
  have hbias := bias_ge_of_isWide hF
  have hexp : (rebiasUpSub (topBit (sigField Config.half h)) F : Int) - F.bias =
      topBit (sigField Config.half h) - 24 := by
    rw [rebiasUpSub, esub16_eq]
    omega
  have hshift : subshift ((topBit (sigField Config.half h) : Int) - 24) F.sigBits =
      F.sigBits - topBit (sigField Config.half h) := by
    rw [subshift, emin16_eq, keptBits_eq]
    omega
  rw [unpack_sub he hf, unpackSub, leadpos_eq_topBit hf hlt,
    pack_assemble_of_sub (signField_le_one _ h) (rebiasUpSub_lt hF htop) (toWideSig_lt hF hsig) hF hexp (by omega)
      (by omega),
    packSub, hshift, implicitBit_add_toWideSig hF hf hlt, round10_mul_two_pow _ (by omega)]

theorem pack_unpack_of_normal (hc : classify Config.half h = .normal) :
    pack F (unpack F h) =
      packSign (signField Config.half h) ||| ((expField Config.half h <<< 10) + sigField Config.half h) := by
  obtain ⟨h₁, h₂⟩ := classify_eq_normal_iff.mp hc
  have hlt : expField Config.half h < 2 ^ 5 := expField_lt Config.half h
  have hbias := bias_ge_of_isWide hF
  rw [half_expFieldMax] at h₂
  have hexp : (rebiasUp (expField Config.half h) F : Int) - F.bias = expField Config.half h - 15 := by
    rw [rebiasUp, half_bias]
    omega
  have hback : rebiasDown ((expField Config.half h : Int) - 15) = expField Config.half h := by
    rw [rebiasDown_eq_toNat (by omega) (by omega)]
    omega
  have hM := eleven_le_sigBits hF
  rw [unpack_normal h₁ h₂,
    pack_assemble_of_normal (signField_le_one _ h) (rebiasUp_lt hF (by omega))
      (toWideSig_lt hF (sigField_lt Config.half h)) hF hexp (by omega) (by omega),
    packNormal, hback, toWideSig, keptBits_eq, Nat.shiftLeft_eq _ (F.sigBits - _), round10_mul_two_pow _ (by omega),
    half_sigBits]

theorem pack_unpack_of_infinity (hc : classify Config.half h = .infinity) :
    pack F (unpack F h) = packSign (signField Config.half h) ||| 0x7C00 := by
  rw [pack_of_infinity hF (classify_unpack_of_infinity hF hc), signField_unpack hF]

theorem pack_unpack_of_nan (hc : classify Config.half h = .nan) :
    pack F (unpack F h) = packSign (signField Config.half h) ||| 0x7E00 := by
  rw [pack_of_nan hF (classify_unpack_of_nan hF hc), signField_unpack hF]

/-- In each class but NaN the packer's result is the pattern put together from its fields. -/
theorem pack_unpack_of_not_nan (hh : h < 2 ^ 16) (hc : classify Config.half h ≠ .nan) : pack F (unpack F h) = h := by
  refine Eq.trans ?_ (packSign_or_fields hh)
  cases hclass : classify Config.half h with
  | zero =>
    obtain ⟨he, hf⟩ := classify_eq_zero_iff.mp hclass
    rw [pack_unpack_of_zero hF hclass, he, hf, Nat.zero_shiftLeft, Nat.add_zero, Nat.or_zero]
  | subnormal =>
    obtain ⟨he, -⟩ := classify_eq_subnormal_iff.mp hclass
    rw [pack_unpack_of_subnormal hF hclass, he, Nat.zero_shiftLeft, Nat.zero_add]
  | normal => exact pack_unpack_of_normal hF hclass
  | infinity =>
    obtain ⟨-, he, hf⟩ := classify_eq_infinity_iff.mp hclass
    rw [pack_unpack_of_infinity hF hclass, he, hf]
    rfl
  | nan => exact absurd hclass hc

end RoundTrip

/-- The canonical NaN of a NaN's sign is another pattern, but for the two canonical NaNs. -/
theorem canonicalNan_ne_iff {h : Nat} (hh : h < 2 ^ 16) (hc : classify Config.half h = .nan) :
    packSign (signField Config.half h) ||| 0x7E00 ≠ h ↔ h ≠ 0x7E00 ∧ h ≠ 0xFE00 := by
  have hrange := (classify_half_eq_nan_iff hh).mp hc
  rw [packSign_or_eq_add _ (by decide), signField_eq_div_mod, half_expBits, half_sigBits]
  omega

/-- Settles O46: only a NaN fails to come back, and it comes back as the canonical NaN of its sign. -/
theorem roundTrip : Obligations.RoundTrip := by
  intro F h hF hh
  refine ⟨?same, fun hc => ?canonical, ?fails⟩
  case same =>
    rintro (hc | rfl | rfl)
    · exact pack_unpack_of_not_nan hF hh hc
    · exact pack_unpack_of_nan hF (by decide)
    · exact pack_unpack_of_nan hF (by decide)
  case canonical => rw [pack_unpack_of_nan hF hc, packSign_signField]
  case fails =>
    have hrange := classify_half_eq_nan_iff hh
    by_cases hc : classify Config.half h = .nan
    · rw [pack_unpack_of_nan hF hc, canonicalNan_ne_iff hh hc]
      have hnan := hrange.mp hc
      omega
    · have hno := mt hrange.mpr hc
      simp only [pack_unpack_of_not_nan hF hh hc, ne_eq, not_true_eq_false, false_iff]
      omega

/-! ### Everything that rounds to `2^16` or more (R120) -/

/-- A wide significand at most half a kept unit below `2^M` rounds up to 1024. -/
theorem round10_sig_carry {F : Format} (hF : IsWide F) {f : Nat} (hge : 2 ^ F.sigBits ≤ f + 2 ^ (F.sigBits - 11))
    (hlt : f < 2 ^ F.sigBits) : round10 f (F.sigBits - Config.keptBits) = 2 ^ 10 := by
  have hM := eleven_le_sigBits hF
  have hsplit : F.sigBits - 10 + 10 = F.sigBits := by omega
  rw [keptBits_eq]
  exact round10_carry (by decide) (by omega) (hsplit.symm ▸ hge) (hsplit.symm ▸ hlt)

/-- From halfway between 65504 and `2^16` on, the significand rounds up to 1024 and carries to the infinity. -/
theorem pack_of_halfway_to_two_pow_16 {F : Format} (hF : IsWide F) {a : Nat}
    (h₁ : (F.bias + 16) * 2 ^ F.sigBits ≤ a + 2 ^ (F.sigBits - 11)) (h₂ : a < (F.bias + 16) * 2 ^ F.sigBits) :
    pack F a = 0x7C00 := by
  have hE := two_pow_expBits_of_isWide hF
  have hbias := bias_ge_of_isWide hF
  have hunit : (F.bias + 16) * 2 ^ F.sigBits = (F.bias + 15) * 2 ^ F.sigBits + 2 ^ F.sigBits := Nat.succ_mul _ _
  have hhalf : 2 ^ (F.sigBits - 11) ≤ 2 ^ F.sigBits := Nat.pow_le_pow_right two_pos (Nat.sub_le _ _)
  have hdiv : a / 2 ^ F.sigBits = F.bias + 15 := Nat.div_eq_of_lt_le (by omega) h₂
  have hsum : (F.bias + 15) * 2 ^ F.sigBits + a % 2 ^ F.sigBits = a := hdiv ▸ Nat.div_add_mod' a (2 ^ F.sigBits)
  have hsign : signField F a = 0 := by
    rw [signField_eq_div_pow_div, hdiv, Nat.div_eq_of_lt (by omega)]
  have hexp : unbiasedExp F a = 15 := by
    rw [unbiasedExp, expField_eq_div_mod, hdiv, Nat.mod_eq_of_lt (by omega)]
    omega
  have hround : round10 (sigField F a) (F.sigBits - Config.keptBits) = 2 ^ 10 := by
    refine round10_sig_carry hF ?_ (sigField_lt F a)
    rw [sigField_eq_mod]
    omega
  rw [pack_of_normal hF (by omega) (by omega), hsign, hexp, packNormal, hround]
  rfl

/-- Every operand from 65520 to the positive infinity packs to the positive infinity. -/
theorem pack_of_ge_65520 {F : Format} (hF : IsWide F) {a : Nat}
    (h₁ : (F.bias + 16) * 2 ^ F.sigBits ≤ a + 2 ^ (F.sigBits - 11)) (h₂ : a ≤ F.expFieldMax * 2 ^ F.sigBits) :
    pack F a = 0x7C00 := by
  obtain hlt | hge := lt_or_ge a ((F.bias + 16) * 2 ^ F.sigBits)
  · exact pack_of_halfway_to_two_pow_16 hF h₁ hlt
  · exact (pack_infinity_both hge h₂).1

/-- Every NaN packs to one of the two canonical NaNs. -/
theorem pack_of_nan_cases {F : Format} (hF : IsWide F) {a : Nat} (hc : classify F a = .nan) :
    pack F a = 0x7E00 ∨ pack F a = 0xFE00 := by
  rw [pack_of_nan hF hc]
  obtain hs | hs := Nat.le_one_iff_eq_zero_or_eq_one.mp (signField_le_one F a) <;> rw [hs] <;> decide

/-- Settles O49: the rows over many operands by the lemmas above, the fixed operands computed. -/
theorem sourceBoundaryProperties : Obligations.SourceBoundaryProperties := by
  refine ⟨by decide, by decide, fun a h₁ h₂ => ?_, fun a h₁ h₂ => ?_, by decide, by decide, by decide,
    fun F a hF _ => pack_of_nan_cases hF, by decide, by decide⟩
  · exact pack_of_ge_65520 (.inl rfl) (Nat.add_le_add_right h₁ (2 ^ 12)) h₂
  · exact pack_of_ge_65520 (.inr rfl) (Nat.add_le_add_right h₁ (2 ^ 41)) h₂

end Sys2Proof.Machine
end

section
/-! SUPPORT. The decoder, the output function and the step (30_encoding.md, 60_exceptions.md): each of the step's three
outcomes by its exact condition, and the statements O1 to O6, O8, O9, O57 to O59. -/

namespace Sys2Proof.Machine

open Sys2Proof.Rules

/-! ### Decoder (R49 to R58) -/

/-- Settles O1: the map is searched for each of the sixteen words. -/
theorem operationMapWordsDecode : Obligations.OperationMapWordsDecode := by
  unfold Obligations.OperationMapWordsDecode
  decide

theorem decode_encode (i : Instr) : decode (encode i) = .ok i := by
  cases i <;> rfl

/-- Settles O2: decoding inverts encoding, and a code is decoded only to what it encodes. -/
theorem decodeAndEncodeAgree : Obligations.DecodeAndEncodeAgree :=
  fun _ i _ => ⟨encode_of_decode, fun h => h ▸ decode_encode i⟩

/-! ### The output function (R56) -/

/-- A reserved select drives `Y = 0`, `ILL = 1`, whatever is on `A` (R58, R133). -/
theorem outputs_of_reserved {op : OpCode} (h : 10 ≤ op.toNat) (a : Word) : outputs op a = { y := 0, ill := 1 } := by
  have hfn : fnField op = 5 ∨ fnField op = 6 ∨ fnField op = 7 := by
    rw [fnField, Nat.shiftRight_eq_div_pow]
    omega
  obtain hfn | hfn | hfn := hfn <;> simp only [outputs, hfn]

theorem outputs_ill_of_defined {op : OpCode} (h : op.toNat < 10) (a : Word) : (outputs op a).ill = 0 := by
  obtain ⟨-, i, hd⟩ | ⟨hge, -⟩ := decode_cases op
  · rw [← encode_of_decode hd, outputs_encode_ill]
  · omega

theorem illLevel_eq_ite (op : OpCode) : illLevel op = if op.toNat < 10 then 0 else 1 := by
  have hfn : fnField op < 5 ↔ op.toNat < 10 := by
    rw [fnField, Nat.shiftRight_eq_div_pow]
    omega
  simp only [illLevel, hfn]

/-- The pair an operation delivers is the one the block drives. -/
theorem outputs_of_defined {op : OpCode} (h : op.toNat < 10) (a : Word) :
    { y := (outputs op a).y, ill := 0 } = outputs op a := by
  rw [← outputs_ill_of_defined h a]

/-! ### The three outcomes of a step (R130, R143; log 8) -/

theorem step_eq_fault_iff {s : State} {r : Fault} : step s = .fault r ↔ 10 ≤ (nextLine s).op.toNat := by
  obtain ⟨hge, -, hs⟩ | ⟨i, hlt, -, -, hs⟩ | ⟨i, a, hlt, -, -, hs⟩ := step_cases s
  · rw [hs]
    cases r
    simp [hge]
  · simp [hs, hlt]
  · simp [hs, exec_eq_deliver_outputs, hlt]

theorem step_eq_refused_iff {s : State} {r : Refusal} :
    step s = .refused r ↔
      r = .operandNotProduced ∧ (nextLine s).op.toNat < 10 ∧ resolve s.outcomes (nextLine s) = none := by
  obtain ⟨hge, -, hs⟩ | ⟨i, hlt, -, hr, hs⟩ | ⟨i, a, -, -, hr, hs⟩ := step_cases s
  · simp [hs, hge]
  · simp [hs, hlt, hr, eq_comm]
  · simp [hs, hr, exec_eq_deliver_outputs]

/-- A step that answers has presented a defined select and its operand, and delivers the `Y` of the output function. -/
theorem step_eq_next_iff {s t : State} :
    step s = .next t ↔
      (nextLine s).op.toNat < 10 ∧ ∃ a, resolve s.outcomes (nextLine s) = some a ∧
        t = deliver (outputs (nextLine s).op a).y (present (nextLine s).op a s) := by
  obtain ⟨hge, -, hs⟩ | ⟨i, hlt, -, hr, hs⟩ | ⟨i, a, hlt, hd, hr, hs⟩ := step_cases s
  · simp [hs, hge]
  · simp [hs, hr]
  · simp [hs, hlt, hr, exec_eq_deliver_outputs, encode_of_decode hd, eq_comm]

/-! ### Operands (R61) -/

theorem level_ne_zero_iff (b : Level) : b ≠ 0 ↔ b = 1 := by
  obtain rfl | rfl := b.eq_zero_or_eq_one <;> decide

/-- There is no operand exactly when `%n` names no line that has run, or one that `ILL` marked. -/
theorem resolve_eq_none_iff {done : List Outputs} {l : Line} :
    resolve done l = none ↔
      ∃ n, l.operand = .result n ∧ (n = 0 ∨ done.length < n ∨ ∃ o, done[n - 1]? = some o ∧ o.ill = 1) := by
  obtain ⟨op, a | _ | n⟩ := l
  · simp
  · simp [resolve]
  · obtain hle | hlt := le_or_gt done.length n
    · simp [resolve, hle, Nat.lt_succ_of_le hle]
    · simpa [resolve, hlt, Nat.not_lt.mpr (Nat.succ_le_of_lt hlt)] using level_ne_zero_iff done[n].ill

/-! ### Statements about the step -/

/-- Delivering a value adds an outcome with `ILL = 0`. -/
theorem noFaultRecorded_deliver {s : State} (h : NoFaultRecorded s) (v : Word) : NoFaultRecorded (deliver v s) := by
  intro o ho
  obtain hold | rfl : o ∈ s.outcomes ∨ o = { y := v, ill := 0 } := by simpa using ho
  · exact h o hold
  · rfl

/-- Settles O57: the new outcome has `ILL = 0`, and the ports agree after every step that answers. -/
theorem stepKeepsRunAndPortsInOrder : Obligations.StepKeepsRunAndPortsInOrder := by
  rintro s t ⟨hgood, -⟩ h
  obtain ⟨-, a, -, ht⟩ := step_eq_next_iff.mp h
  exact ⟨ht ▸ noFaultRecorded_deliver (s := present _ a s) hgood _, outputs_of_step h⟩

/-- Settles O3: the map covers exactly the codes below 10, and the fault is a condition on the select. -/
theorem decodingIsTotalAndReadsOnlyOp : Obligations.DecodingIsTotalAndReadsOnlyOp := by
  refine ⟨fun op => ?_, fun s t hop => by rw [step_eq_fault_iff, step_eq_fault_iff, hop]⟩
  obtain ⟨hlt, hd⟩ | ⟨hge, hd⟩ := decode_cases op
  · exact .inl ⟨hd, hlt⟩
  · exact .inr ⟨hd, hge⟩

/-- Settles O5: the step faults on the select alone, and the ports show it for both kinds of select. -/
theorem reservedSelectIsTheOneFault : Obligations.ReservedSelectIsTheOneFault := by
  refine ⟨fun s r => step_eq_fault_iff, fun op a => ?_⟩
  rw [illLevel_eq_ite]
  obtain hlt | hge := lt_or_ge op.toNat 10
  · simp [outputs_ill_of_defined hlt, hlt]
  · simp [outputs_of_reserved hge, hge]

/-- Settles O6: the step refuses a defined select exactly when its operand resolves to nothing. -/
theorem onlyMissingResultIsRefused : Obligations.OnlyMissingResultIsRefused := by
  intro s r
  rw [step_eq_refused_iff, resolve_eq_none_iff]

/-- Settles O8: what an operation answers is `deliver`, of the `Y` the output function gives. -/
theorem execMatchesDispatchPseudocode : Obligations.ExecMatchesDispatchPseudocode :=
  fun i s => ⟨exec_eq_deliver_outputs i s, outputs_encode_ill i s.a⟩

/-- Settles O4: the next line is the held pair, which presenting leaves as it is, or the first line of the run. -/
theorem stepRunsDecodedOperation : Obligations.StepRunsDecodedOperation := by
  refine ⟨fun s i hnil hd => ?held, fun s l ls i a hcons hd hr => ?line⟩
  case held =>
    have hl := nextLine_of_nil hnil
    rw [step_of_decode (i := i) (a := s.a) (hl ▸ hd) (by rw [hl, resolve_value]), hl, present_held hnil]
  case line =>
    have hl := nextLine_of_cons hcons
    rw [step_of_decode (i := i) (a := a) (hl ▸ hd) (hl ▸ hr), hl, present, hcons, List.tail_cons]

/-- Settles O9: an operation does nothing but deliver. -/
theorem execFrame : Obligations.ExecFrame := by
  intro i s t h
  rw [exec_eq_deliver_outputs] at h
  obtain rfl : deliver (outputs (encode i) s.a).y s = t := by simpa using h
  simp

/-- With nothing pending a step on a defined select delivers the output of the held pair (R143; log 4). -/
theorem step_of_held {s : State} (hnil : s.pending = []) (hop : s.op.toNat < 10) :
    step s = .next (deliver (outputs s.op s.a).y s) := by
  rw [step_eq_next_iff, nextLine_of_nil hnil]
  exact ⟨hop, s.a, resolve_value _ _ _, by rw [present_held hnil]⟩

/-- Settles O59: the ports already show the output of the held pair, so delivering it again changes none. -/
theorem holdingThePairChangesNoPort : Obligations.HoldingThePairChangesNoPort := by
  intro s t h hnil
  have hports := outputs_of_step h
  obtain ⟨hlt, a, -, ht⟩ := step_eq_next_iff.mp h
  have hop : t.op.toNat < 10 := by simpa [ht] using hlt
  have hill : t.ill = 0 := by simp [ht]
  exact ⟨_, step_of_held hnil hop, rfl, rfl, by simp [hports], hill.symm, hnil⟩

/-- Settles O58: the ports of the reset state are computed, and no run stands ahead of it. -/
theorem resetIsSafeAndPortsAgree : Obligations.ResetIsSafeAndPortsAgree := by
  have hgood : NoFaultRecorded State.reset := fun o ho => absurd ho List.not_mem_nil
  have hports : outputs State.reset.op State.reset.a = { y := State.reset.y, ill := State.reset.ill } := by decide
  exact ⟨⟨by decide, hgood, rfl⟩, hgood, hports⟩

end Sys2Proof.Machine
end

section
/-! SUPPORT. Runs (70_reset_and_hazards.md R153): a safe state steps to a safe state, a run taken apart at its first
line, and the statements O54 to O56. -/

namespace Sys2Proof.Machine

open Sys2Proof.Rules

/-! ### Safe runs -/

theorem exists_resolve_of_sourceWf {done : List Outputs} {l : Line} (hgood : ∀ o ∈ done, o.ill = 0)
    (hwf : sourceWf done.length l.operand = true) : ∃ a, resolve done l = some a := by
  rw [← Option.ne_none_iff_exists', Ne, resolve_eq_none_iff]
  rintro ⟨n, hn, hbad⟩
  obtain ⟨h₁, h₂⟩ : 1 ≤ n ∧ n ≤ done.length := by simpa [hn, sourceWf] using hwf
  obtain h0 | hlong | ⟨o, ho, hill⟩ := hbad
  · omega
  · omega
  · exact absurd ((hgood o (List.mem_of_getElem? ho)).symm.trans hill) (by decide)

/-- In a safe state the next line, be it the held pair, has a defined select and an operand, and leaves a well-formed
run. -/
theorem lineWf_of_safe {s : State} (h : Safe s) :
    lineWf s.outcomes.length (nextLine s) = true ∧ runWf (s.outcomes.length + 1) s.pending.tail = true := by
  obtain ⟨hop, -, hrun⟩ := h
  cases hp : s.pending with
  | nil => simp [nextLine_of_nil hp, lineWf, sourceWf, hop, runWf]
  | cons l ls => simpa [nextLine_of_cons hp, hp, runWf] using hrun

theorem safe_step {s : State} (h : Safe s) :
    ∃ t, step s = .next t ∧ Safe t ∧ t.outcomes.length = s.outcomes.length + 1 ∧ t.pending = s.pending.tail := by
  obtain ⟨hline, hrest⟩ := lineWf_of_safe h
  obtain ⟨-, hgood, -⟩ := h
  obtain ⟨hop, hsource⟩ : opDefined (nextLine s).op = true ∧ sourceWf s.outcomes.length (nextLine s).operand = true :=
    by simpa [lineWf] using hline
  obtain ⟨a, ha⟩ := exists_resolve_of_sourceWf hgood hsource
  have hstep := step_eq_next_iff.mpr ⟨(opDefined_iff _).mp hop, a, ha, rfl⟩
  exact ⟨_, hstep, ⟨by simpa using hop, noFaultRecorded_deliver (s := present _ a s) hgood _, by simpa using hrest⟩,
    by simp, by simp⟩

/-- Settles O56, by induction on the number of steps. -/
theorem safeRunsNeverStop : Obligations.SafeRunsNeverStop := by
  intro s k
  induction k generalizing s with
  | zero => exact fun hs => ⟨s, run_zero s, hs, rfl, rfl⟩
  | succ k ih =>
    intro hs
    obtain ⟨t, hstep, ht, hlen, hpend⟩ := safe_step hs
    obtain ⟨u, hrun, hu, hlen', hpend'⟩ := ih t ht
    refine ⟨u, (run_succ_of_next hstep k).trans hrun, hu, by omega, ?_⟩
    rw [hpend', hpend, List.drop_tail]

/-! ### The block's outcome of a run -/

theorem blockRun_cons_eq_some_iff {done outs : List Outputs} {l : Line} {ls : List Line} :
    blockRun done (l :: ls) = some outs ↔
      ∃ a, resolve done l = some a ∧ blockRun (done ++ [outputs l.op a]) ls = some outs := by
  rw [blockRun]
  cases resolve done l <;> simp

/-- Settles O54, by induction on the lines. -/
theorem linesGiveStandAloneResults : Obligations.LinesGiveStandAloneResults := by
  intro done ps
  induction ps generalizing done with
  | nil => simp [blockRun]
  | cons p ps ih =>
    rw [List.map_cons, blockRun_cons_eq_some_iff]
    exact ⟨p.2, rfl, by simp [ih, valueLine]⟩

/-! ### Stepping through a run (D16) -/

/-- The run ahead of `s` ends in `t`: every line is defined and has its outcome, and the ports of `t` are those of the
last line (R153). -/
def RunEndsIn (s t : State) : Prop :=
  (∀ l ∈ s.pending, l.op.toNat < 10) ∧ t.pending = [] ∧ blockRun s.outcomes s.pending = some t.outcomes ∧
    (s.pending = [] → t = s) ∧
    (s.pending ≠ [] → (∃ l, s.pending.getLast? = some l ∧ t.op = l.op ∧
        resolve t.outcomes.dropLast l = some t.a) ∧ outputs t.op t.a = { y := t.y, ill := t.ill })

/-- The run ahead of `s` comes to a reserved select, all lines before it being defined and having outcomes (R130;
log 5). -/
def RunFaults (s : State) : Prop :=
  ∃ (before after : List Line) (l : Line), s.pending = before ++ l :: after ∧ 10 ≤ l.op.toNat ∧
    (∀ k ∈ before, k.op.toNat < 10) ∧ ∃ outs, blockRun s.outcomes before = some outs

/-- The state after the line `l` with the operand `a`. -/
def afterLine (l : Line) (a : Word) (s : State) : State := deliver (outputs l.op a).y (present l.op a s)

theorem afterLine_pending {s : State} {l : Line} {ls : List Line} (h : s.pending = l :: ls) (a : Word) :
    (afterLine l a s).pending = ls := by
  simp [afterLine, h]

theorem afterLine_outcomes {l : Line} (h : l.op.toNat < 10) (a : Word) (s : State) :
    (afterLine l a s).outcomes = s.outcomes ++ [outputs l.op a] := by
  rw [← outputs_of_defined h]
  rfl

theorem step_of_line {s : State} {l : Line} {ls : List Line} {a : Word} (hp : s.pending = l :: ls)
    (hlt : l.op.toNat < 10) (ha : resolve s.outcomes l = some a) : step s = .next (afterLine l a s) := by
  rw [step_eq_next_iff, nextLine_of_cons hp]
  exact ⟨hlt, a, ha, rfl⟩

theorem runEndsIn_nil {s t : State} (hp : s.pending = []) : RunEndsIn s t ↔ t = s := by
  constructor
  · rintro ⟨-, -, -, hsame, -⟩
    exact hsame hp
  · rintro rfl
    simp [RunEndsIn, hp, blockRun]

/-- After the last line, the ports of that line and its outcome are the state after it. -/
theorem runEndsIn_last_iff {s t : State} {l : Line} {a : Word} (hp : s.pending = [l]) (hlt : l.op.toNat < 10)
    (ha : resolve s.outcomes l = some a) : RunEndsIn s t ↔ t = afterLine l a s := by
  have houts := afterLine_outcomes hlt a s
  constructor
  · rintro ⟨-, hpend, hblock, -, hports⟩
    obtain ⟨⟨k, hk, hop, hres⟩, hout⟩ := hports (by simp [hp])
    obtain rfl : l = k := by simpa [hp] using hk
    have hto : t.outcomes = s.outcomes ++ [outputs l.op a] := by simpa [hp, blockRun, ha] using hblock.symm
    have hta : a = t.a := by simpa [hto, ha] using hres
    have hty : outputs l.op a = { y := t.y, ill := t.ill } := by rw [hta, ← hop, hout]
    have hill := outputs_ill_of_defined hlt a
    cases t
    simp_all [afterLine, deliver, present]
  · rintro rfl
    refine ⟨by simpa [hp], by simp [afterLine, hp], by simp [hp, blockRun, ha, houts], by simp [hp], fun _ => ?_⟩
    exact ⟨⟨l, by simp [hp], rfl, by rwa [houts, List.dropLast_concat]⟩,
      (outputs_of_defined hlt a).symm⟩

theorem runEndsIn_cons_iff {s t : State} {l : Line} {ls : List Line} (hp : s.pending = l :: ls) :
    RunEndsIn s t ↔
      l.op.toNat < 10 ∧ ∃ a, resolve s.outcomes l = some a ∧ RunEndsIn (afterLine l a s) t := by
  have hfirst : RunEndsIn s t → l.op.toNat < 10 ∧ ∃ a, resolve s.outcomes l = some a := by
    rintro ⟨hdef, -, hblock, -⟩
    rw [hp, blockRun_cons_eq_some_iff] at hblock
    obtain ⟨a, ha, -⟩ := hblock
    exact ⟨hdef l (by simp [hp]), a, ha⟩
  have hsame : ∀ a, l.op.toNat < 10 → resolve s.outcomes l = some a →
      (RunEndsIn s t ↔ RunEndsIn (afterLine l a s) t) := by
    intro a hlt ha
    have hpa := afterLine_pending hp a
    cases ls with
    | nil => rw [runEndsIn_last_iff hp hlt ha, runEndsIn_nil hpa]
    | cons k ks => simp [RunEndsIn, hp, hpa, afterLine_outcomes hlt a s, blockRun_cons_eq_some_iff (l := l), ha, hlt]
  constructor
  · intro h
    obtain ⟨hlt, a, ha⟩ := hfirst h
    exact ⟨hlt, a, ha, (hsame a hlt ha).mp h⟩
  · rintro ⟨hlt, a, ha, h⟩
    exact (hsame a hlt ha).mpr h

theorem runFaults_cons_iff {s : State} {l : Line} {ls : List Line} (hp : s.pending = l :: ls) :
    RunFaults s ↔
      10 ≤ l.op.toNat ∨
        l.op.toNat < 10 ∧ ∃ a, resolve s.outcomes l = some a ∧ RunFaults (afterLine l a s) := by
  constructor
  · rintro ⟨_ | ⟨k, before⟩, after, m, hsplit, hge, hdef, outs, houts⟩
    · obtain ⟨rfl, -⟩ : l = m ∧ ls = after := by simpa [hp] using hsplit
      exact .inl hge
    · obtain ⟨rfl, hrest⟩ : l = k ∧ ls = before ++ m :: after := by simpa [hp] using hsplit
      obtain ⟨hlt, hdef'⟩ := List.forall_mem_cons.mp hdef
      obtain ⟨a, ha, houts'⟩ := blockRun_cons_eq_some_iff.mp houts
      exact .inr ⟨hlt, a, ha, before, after, m, (afterLine_pending hp a).trans hrest, hge, hdef', outs,
        by rwa [afterLine_outcomes hlt]⟩
  · rintro (hge | ⟨hlt, a, ha, before, after, m, hsplit, hge, hdef, outs, houts⟩)
    · exact ⟨[], ls, l, hp, hge, by simp, s.outcomes, rfl⟩
    · rw [afterLine_pending hp] at hsplit
      rw [afterLine_outcomes hlt] at houts
      exact ⟨l :: before, after, m, by rw [hp, hsplit, List.cons_append], hge, List.forall_mem_cons.mpr ⟨hlt, hdef⟩,
        outs, blockRun_cons_eq_some_iff.mpr ⟨a, ha, houts⟩⟩

/-- As many steps as lines pend, by induction on the lines: both ends of the run at once. -/
theorem run_pending_iff (ls : List Line) (s : State) (hp : s.pending = ls) :
    (∀ t : State, Host.Core.run core ls.length s = .next t ↔ RunEndsIn s t) ∧
    (∀ r : Fault, Host.Core.run core ls.length s = .fault r ↔ RunFaults s) := by
  induction ls generalizing s with
  | nil =>
    refine ⟨fun t => ?_, fun r => ?_⟩
    · rw [List.length_nil, run_zero, runEndsIn_nil hp, eq_comm (a := t)]
      exact ⟨Host.Outcome.next.inj, congrArg _⟩
    · rw [List.length_nil, run_zero]
      simp [RunFaults, hp]
  | cons l ls ih =>
    rw [List.length_cons]
    simp only [runEndsIn_cons_iff hp, runFaults_cons_iff hp]
    obtain hlt | hge := lt_or_ge l.op.toNat 10
    · cases ha : resolve s.outcomes l with
      | none =>
        have hs : step s = .refused .operandNotProduced := by
          rw [step_eq_refused_iff, nextLine_of_cons hp]
          exact ⟨rfl, hlt, ha⟩
        rw [run_succ_of_refused hs]
        simp [hlt]
      | some a =>
        obtain ⟨hnext, hfault⟩ := ih (afterLine l a s) (afterLine_pending hp a)
        rw [run_succ_of_next (step_of_line hp hlt ha)]
        simp [hlt, hnext, hfault]
    · have hs : step s = .fault .reservedOperationSelect := by
        rwa [step_eq_fault_iff, nextLine_of_cons hp]
      rw [run_succ_of_fault hs]
      simp [hge]

/-- Settles O55: both ends of the run, at the run that pends. -/
theorem runOutcomeIsTheBlocks : Obligations.RunOutcomeIsTheBlocks :=
  fun s => run_pending_iff s.pending s rfl

end Sys2Proof.Machine
end

section
/-! SUPPORT. Reassembled fields (40_field_extractor.md R71), the shift and the wide exponents of the rebias engine (R76
to R78), the rounding unit as rounding to nearest (R80 to R86); and the statements O19, O22, O23, O25 to O27. -/

namespace Sys2Proof.Machine

open Sys2Proof.Rules

/-! ### Fields reassembled (R71) -/

theorem shiftLeft_and_eq_zero {y k : Nat} (hy : y < 2 ^ k) (x : Nat) : (x <<< k) &&& y = 0 := by
  rw [← Nat.mod_eq_of_lt (Nat.and_lt_two_pow (x <<< k) hy), Nat.and_mod_two_pow, Nat.shiftLeft_eq, Nat.mul_mod_left,
    Nat.zero_and]

theorem width_sub_one (F : Format) : F.width - 1 = signShift F := by
  rw [Format.width, signShift]
  omega

theorem unbiasedExp_add_bias (F : Format) (a : Nat) : (unbiasedExp F a + F.bias).toNat = expField F a := by
  rw [unbiasedExp]
  omega

theorem assemble_fields {F : Format} {a : Nat} (ha : a < 2 ^ F.width) :
    assemble F (signField F a) (expField F a) (sigField F a) = a := by
  rw [assemble_eq_add F _ _ _ (expField_lt F a) (sigField_lt F a)]
  exact (eq_sum_of_fields F a ha).symm

/-- An exponent field and a significand field in range stand below the sign bit. -/
theorem expField_shiftLeft_lt {F : Format} {ef : Nat} (h : ef < 2 ^ F.expBits) :
    ef <<< F.sigBits < 2 ^ signShift F := by
  rw [Nat.shiftLeft_eq, signShift, pow_add]
  exact Nat.mul_lt_mul_of_pos_right h (Nat.two_pow_pos _)

/-- Settles O19: both directions are the assembly of three fields in range. -/
theorem fieldsReassemble : Obligations.FieldsReassemble := by
  intro F hF
  refine ⟨fun a ha => ?_, fun s f e hs h₁ h₂ hf => ?_⟩
  · have hsig : sigField F a < 2 ^ signShift F :=
      (sigField_lt F a).trans_le (Nat.pow_le_pow_right two_pos (Nat.le_add_left _ _))
    rw [width_sub_one, unbiasedExp_add_bias]
    exact ⟨(assemble_fields ha).symm, shiftLeft_and_eq_zero (expField_shiftLeft_lt (expField_lt F a)) _,
      shiftLeft_and_eq_zero hsig _, shiftLeft_and_eq_zero (sigField_lt F a) _⟩
  · have hE := two_pow_expBits_of_isWide hF
    have hexp : (e + F.bias).toNat < 2 ^ F.expBits := by omega
    rw [width_sub_one]
    refine ⟨signField_assemble hs hexp hf, (unbiasedExp_assemble hs hexp hf).trans ?_, sigField_assemble hs hexp hf⟩
    omega

/-! ### The rebias engine in numbers (R76 to R78) -/

theorem subshift_cast {M : Nat} {e : Int} (hM : 10 ≤ M) (h : e ≤ -15) :
    (subshift e M : Int) = (-14 - e) + ((M : Int) - 10) := by
  rw [subshift, emin16_eq, keptBits_eq]
  omega

theorem mul_two_zpow_eq_div_mul {x : ℚ} {n : Nat} {j k : Int} (h : k - n = j) :
    x * (2 : ℚ) ^ j = x / 2 ^ n * (2 : ℚ) ^ k := by
  rw [← h, zpow_sub₀ two_ne_zero, zpow_natCast, mul_div_assoc', div_mul_eq_mul_div]

/-- Settles O22: the shift is computed without truncation, and moves the scale from `2^(e - M)` to `2^-24`. -/
theorem subshiftBringsToSubnormalScale : Obligations.SubshiftBringsToSubnormalScale := by
  intro F e hF h₁ h₂
  have hM := keptBits_le_sigBits hF
  have hsh := subshift_cast hM h₂
  have hleast := subshift_cast hM (e := -15) le_rfl
  have hmost := subshift_cast hM (e := -24) (by decide)
  refine ⟨hsh, by omega, by omega, by omega, by omega, fun v => mul_two_zpow_eq_div_mul ?_⟩
  omega

theorem rebiasUp_cast {F : Format} (hF : IsWide F) (E16 : Nat) :
    (rebiasUp E16 F : Int) = ((E16 : Int) - 15) + F.bias := by
  have hbias := bias_ge_of_isWide hF
  rw [rebiasUp, half_bias]
  omega

theorem rebiasUpSub_cast {F : Format} (hF : IsWide F) (p : Nat) :
    (rebiasUpSub p F : Int) = ((p : Int) - 24) + F.bias := by
  have hbias := bias_ge_of_isWide hF
  rw [rebiasUpSub, esub16_eq]
  omega

/-- Settles O23: the fields lie strictly between 0 and the all-ones field `2B + 1`. -/
theorem rebiasUpFormulas : Obligations.RebiasUpFormulas := by
  refine ⟨fun E16 h₁ h₂ => ⟨fun F hF => ?_, rebiasUp_single E16, rebiasUp_double E16⟩,
    fun p hp => ⟨fun F hF => ?_, rebiasUpSub_single p, rebiasUpSub_double p⟩⟩
  · have hbias := bias_ge_of_isWide hF
    have hup := rebiasUp_cast hF E16
    rw [two_pow_expBits_of_isWide hF]
    exact ⟨hup, by omega, by omega⟩
  · have hbias := bias_ge_of_isWide hF
    have hup := rebiasUpSub_cast hF p
    rw [two_pow_expBits_of_isWide hF]
    exact ⟨hup, by omega, by omega⟩

/-! ### The increment (R81, R82) -/

theorem roundGuard_eq_zero_or_one (v sh : Nat) : roundGuard v sh = 0 ∨ roundGuard v sh = 1 := by
  rw [roundGuard_eq]
  exact Nat.mod_two_eq_zero_or_one _

theorem roundLsb_eq_zero_or_one (v sh : Nat) : roundLsb v sh = 0 ∨ roundLsb v sh = 1 := by
  rw [roundLsb_eq]
  exact Nat.mod_two_eq_zero_or_one _

theorem roundSticky_eq_zero_or_one (v sh : Nat) : roundSticky v sh = 0 ∨ roundSticky v sh = 1 := by
  rw [roundSticky]
  split <;> simp

theorem roundInc_of_guard_zero {v sh : Nat} (hg : roundGuard v sh = 0) : roundInc v sh = 0 := by
  rw [roundInc, hg, Nat.zero_and]

/-- At a tie the last kept bit decides. -/
theorem roundInc_of_tie {v sh : Nat} (hg : roundGuard v sh = 1) (hst : roundSticky v sh = 0) :
    roundInc v sh = roundLsb v sh := by
  rw [roundInc, hg, hst, Nat.zero_or, Nat.and_comm, Nat.and_one_is_mod, roundLsb_eq, Nat.mod_mod]

theorem roundInc_of_guard_of_sticky {v sh : Nat} (hg : roundGuard v sh = 1) (hst : roundSticky v sh = 1) :
    roundInc v sh = 1 := by
  obtain hl | hl := roundLsb_eq_zero_or_one v sh <;> rw [roundInc, hg, hst, hl] <;> rfl

/-- Settles O25, row by row. -/
theorem roundIncrementTruthTable : Obligations.RoundIncrementTruthTable :=
  fun v sh _ => ⟨rfl, roundGuard_eq_zero_or_one v sh, roundSticky_eq_zero_or_one v sh, roundLsb_eq_zero_or_one v sh,
    roundInc_of_guard_zero, fun hg hst hl => (roundInc_of_tie hg hst).trans hl,
    fun hg hst hl => (roundInc_of_tie hg hst).trans hl, roundInc_of_guard_of_sticky⟩

/-! ### Ranges (R83) -/

theorem roundKept_lt_two_pow {v sh n : Nat} (h : v < 2 ^ (sh + n)) : roundKept v sh < 2 ^ n := by
  rw [roundKept_eq_div, Nat.div_lt_iff_lt_mul (Nat.two_pow_pos _), ← pow_add, Nat.add_comm]
  exact h

theorem roundKept_le_round10 (v sh : Nat) : roundKept v sh ≤ round10 v sh := Nat.le_add_right _ _

/-- Settles O26: the operands of the two paths have ten bits above the shift, or ten with the implicit bit. -/
theorem roundingRangeOnBothPaths : Obligations.RoundingRangeOnBothPaths := by
  intro F f hF hf
  have hM := keptBits_le_sigBits hF
  have hnormal : f < 2 ^ (F.sigBits - 10 + 10) := by rwa [Nat.sub_add_cancel hM]
  refine ⟨⟨Nat.le_of_lt_succ (roundKept_lt_two_pow hnormal), round10_normal_le hf⟩, fun e h₁ h₂ => ?sub, ?last⟩
  case sub =>
    have hsh := subshift_cast hM h₂
    have hkept : 1 ≤ roundKept (2 ^ F.sigBits + f) (subshift e F.sigBits) := by
      rw [roundKept_eq_div]
      exact Nat.div_pos ((Nat.pow_le_pow_right two_pos (by omega)).trans (Nat.le_add_right _ f)) (Nat.two_pow_pos _)
    have hlt : 2 ^ F.sigBits + f < 2 ^ (subshift e F.sigBits + 10) :=
      calc 2 ^ F.sigBits + f < 2 ^ (F.sigBits + 1) := by rw [pow_succ]; omega
        _ ≤ 2 ^ (subshift e F.sigBits + 10) := Nat.pow_le_pow_right two_pos (subshift_ge _ h₂)
    exact ⟨hkept, Nat.le_of_lt_succ (roundKept_lt_two_pow hlt), hkept.trans (roundKept_le_round10 _ _),
      round10_le_two_pow hlt⟩
  case last =>
    have hpos := Nat.two_pow_pos F.sigBits
    have hhalf := Nat.two_pow_pos (F.sigBits - 11)
    exact round10_sig_carry hF (by omega) (by omega)

/-! ### Rounding to nearest, ties to even (R85, R86) -/

/-- The part shifted out is the guard bit over the bits below it. -/
theorem mod_two_pow_succ_eq_guard (v k : Nat) :
    v % 2 ^ (k + 1) = v % 2 ^ k + 2 ^ k * roundGuard v (k + 1) := by
  rw [roundGuard_eq, Nat.add_sub_cancel, pow_succ, Nat.mod_mul]

/-- The three places of the part shifted out against one half. -/
theorem round10_cases (v : Nat) {sh : Nat} (hsh : 1 ≤ sh) :
    (2 * (v % 2 ^ sh) < 2 ^ sh ∧ round10 v sh = v / 2 ^ sh) ∨
    (2 * (v % 2 ^ sh) = 2 ^ sh ∧ round10 v sh = v / 2 ^ sh + v / 2 ^ sh % 2) ∨
    (2 ^ sh < 2 * (v % 2 ^ sh) ∧ round10 v sh = v / 2 ^ sh + 1) := by
  obtain ⟨k, rfl⟩ := Nat.exists_eq_add_of_le' hsh
  have hlt : v % 2 ^ k < 2 ^ k := Nat.mod_lt _ (Nat.two_pow_pos k)
  have hsticky := roundSticky_eq v (k + 1)
  rw [Nat.add_sub_cancel] at hsticky
  rw [round10, roundKept_eq_div, ← roundLsb_eq, mod_two_pow_succ_eq_guard, pow_succ]
  obtain hg | hg := roundGuard_eq_zero_or_one v (k + 1)
  · rw [roundInc_of_guard_zero hg, hg]
    exact .inl ⟨by omega, rfl⟩
  · rw [hg]
    by_cases h0 : v % 2 ^ k = 0
    · rw [roundInc_of_tie hg (by simp [hsticky, h0]), h0]
      exact .inr (.inl ⟨by omega, rfl⟩)
    · rw [roundInc_of_guard_of_sticky hg (by simp [hsticky, h0])]
      exact .inr (.inr ⟨by omega, rfl⟩)

theorem cast_div_two_pow (v sh : Nat) :
    (v : ℚ) / 2 ^ sh = (v / 2 ^ sh : Nat) + ((v % 2 ^ sh : Nat) : ℚ) / 2 ^ sh := by
  have hpow : (2 : ℚ) ^ sh ≠ 0 := pow_ne_zero _ two_ne_zero
  rw [eq_comm, ← sub_eq_zero]
  have hsum : ((2 ^ sh * (v / 2 ^ sh) + v % 2 ^ sh : Nat) : ℚ) = v := congrArg _ (Nat.div_add_mod v (2 ^ sh))
  push_cast at hsum
  field_simp
  linarith

/-- `n` is `x` rounded to an integer, to nearest, ties to even. -/
def IsNearestEven (n : ℤ) (x : ℚ) : Prop := |(n : ℚ) - x| ≤ 1 / 2 ∧ (|(n : ℚ) - x| = 1 / 2 → n % 2 = 0)

theorem abs_intCast_sub_le (m n : ℤ) (x : ℚ) : ((|m - n| : ℤ) : ℚ) ≤ |(m : ℚ) - x| + |(n : ℚ) - x| := by
  rw [Int.cast_abs, Int.cast_sub, abs_sub_comm (n : ℚ) x]
  exact abs_sub_le _ _ _

/-- Two integers that are both nearest are one apart at most, and if they are, both are at a tie and both even. -/
theorem IsNearestEven.unique {m n : ℤ} {x : ℚ} (hm : IsNearestEven m x) (hn : IsNearestEven n x) : m = n := by
  obtain ⟨hm, hmeven⟩ := hm
  obtain ⟨hn, hneven⟩ := hn
  have hdist := abs_intCast_sub_le m n x
  by_contra hne
  have hone : (1 : ℤ) ≤ |m - n| := Int.one_le_abs (sub_ne_zero.mpr hne)
  have hone' : ((1 : ℤ) : ℚ) ≤ (|m - n| : ℤ) := Int.cast_le.mpr hone
  have hle : |m - n| ≤ 1 := by
    rw [← Int.cast_le (R := ℚ), Int.cast_one]
    linarith
  rw [Int.cast_one] at hone'
  have hm2 := hmeven (le_antisymm hm (by linarith))
  have hn2 := hneven (le_antisymm hn (by linarith))
  rcases abs_cases (m - n) with h | h <;> omega

/-- The result is less than half away, or exactly half away at a tie, and then even. -/
theorem round10_dist (v : Nat) {sh : Nat} (hsh : 1 ≤ sh) :
    |(round10 v sh : ℚ) - (v : ℚ) / 2 ^ sh| < 1 / 2 ∨
    (|(round10 v sh : ℚ) - (v : ℚ) / 2 ^ sh| = 1 / 2 ∧ 2 * (v % 2 ^ sh) = 2 ^ sh ∧ round10 v sh % 2 = 0) := by
  have hpow : (0 : ℚ) < 2 ^ sh := pow_pos two_pos _
  have hnonneg : (0 : ℚ) ≤ ((v % 2 ^ sh : Nat) : ℚ) / 2 ^ sh := by positivity
  have hlt : ((v % 2 ^ sh : Nat) : ℚ) / 2 ^ sh < 1 := by
    rw [div_lt_one hpow]
    exact_mod_cast Nat.mod_lt v (Nat.two_pow_pos sh)
  rw [cast_div_two_pow v sh]
  obtain ⟨hhalf, hr⟩ | ⟨hhalf, hr⟩ | ⟨hhalf, hr⟩ := round10_cases v hsh <;> rw [hr]
  · have hbelow : ((v % 2 ^ sh : Nat) : ℚ) / 2 ^ sh < 1 / 2 := by
      rw [div_lt_div_iff₀ hpow two_pos, one_mul, mul_comm]
      exact_mod_cast hhalf
    rw [sub_add_cancel_left, abs_neg, abs_of_nonneg hnonneg]
    exact .inl hbelow
  · have htie : ((v % 2 ^ sh : Nat) : ℚ) / 2 ^ sh = 1 / 2 := by
      rw [div_eq_div_iff hpow.ne' two_ne_zero, one_mul, mul_comm]
      exact_mod_cast hhalf
    refine .inr ⟨?_, hhalf, by omega⟩
    rw [Nat.cast_add, htie, add_sub_add_left_eq_sub]
    obtain hq | hq := Nat.mod_two_eq_zero_or_one (v / 2 ^ sh) <;> rw [hq] <;> norm_num
  · have habove : 1 / 2 < ((v % 2 ^ sh : Nat) : ℚ) / 2 ^ sh := by
      rw [div_lt_div_iff₀ two_pos hpow, one_mul, mul_comm _ (2 : ℚ)]
      exact_mod_cast hhalf
    rw [Nat.cast_add_one, add_sub_add_left_eq_sub, abs_of_pos (by linarith)]
    exact .inl (by linarith)

theorem round10_isNearestEven (v : Nat) {sh : Nat} (hsh : 1 ≤ sh) :
    IsNearestEven (round10 v sh) ((v : ℚ) / 2 ^ sh) := by
  rw [IsNearestEven, Int.cast_natCast]
  obtain hlt | ⟨heq, -, heven⟩ := round10_dist v hsh
  · exact ⟨hlt.le, fun h => absurd h hlt.ne⟩
  · exact ⟨heq.le, fun _ => by omega⟩

/-- With the low bits zero neither guard nor sticky is set. -/
theorem roundGuard_roundSticky_of_mod_eq_zero {v sh : Nat} (hsh : 1 ≤ sh) (h : v % 2 ^ sh = 0) :
    roundGuard v sh = 0 ∧ roundSticky v sh = 0 := by
  obtain ⟨k, rfl⟩ := Nat.exists_eq_add_of_le' hsh
  rw [mod_two_pow_succ_eq_guard, Nat.add_eq_zero_iff, Nat.mul_eq_zero] at h
  obtain ⟨hlow, hguard⟩ := h
  rw [roundSticky_eq, Nat.add_sub_cancel]
  exact ⟨hguard.resolve_left (Nat.two_pow_pos k).ne', by simp [hlow]⟩

/-- Settles O27: the result is the nearest integer, ties to even, of which there is one. -/
theorem roundingIsNearestTiesToEven : Obligations.RoundingIsNearestTiesToEven := by
  intro v sh hsh
  have hnear := round10_isNearestEven v hsh
  have ⟨hhalf, heven⟩ := hnear
  refine ⟨by simpa using hhalf, fun h => ?_, fun n h₁ h₂ => IsNearestEven.unique ⟨h₁, h₂⟩ hnear, fun h0 => ?_⟩
  · have heven' := heven (by simpa using h)
    omega
  · obtain ⟨hg, hst⟩ := roundGuard_roundSticky_of_mod_eq_zero hsh h0
    exact ⟨hg, hst, by rw [round10, roundInc_of_guard_zero hg, Nat.add_zero, roundKept]⟩

end Sys2Proof.Machine
end

section
/-! SUPPORT. The packer (42_packer.md R94 to R104) as a sign over fifteen bits that the sign has no part in: those bits
case by case, the fields and the class of the result, and the statements O31, O32, O34 to O36, O39. -/

namespace Sys2Proof.Machine

open Sys2Proof.Rules

/-! ### The bits below the sign -/

/-- The fifteen bits the packer puts below the sign bit, from the fields of the operand. -/
def packLow (n : Nat) (F : Format) (ef f : Nat) : Nat :=
  if ef = 0 ∧ f = 0 then 0
  else
    match classDown ((ef : Int) - F.bias) with
    | .over => if ef = F.expFieldMax ∧ f ≠ 0 then infField16 ||| n else infField16
    | .sub => round10 (implicitBit F + f) (subshift ((ef : Int) - F.bias) F.sigBits)
    | .tiny => 0
    | .normal => (rebiasDown ((ef : Int) - F.bias) <<< 10) + round10 f (F.sigBits - 10)

theorem packWith_eq_packLow (n : Nat) (F : Format) (a : Nat) :
    packWith n F a = packSign (signField F a) ||| packLow n F (expField F a) (sigField F a) := by
  by_cases hz : expField F a = 0 ∧ sigField F a = 0
  · rw [packWith_zero hz.1 hz.2, packLow, if_pos hz, Nat.or_zero]
  · rw [packLow, if_neg hz, ← unbiasedExp]
    obtain ⟨h, hc⟩ | ⟨h₁, h₂, hc⟩ | ⟨h₁, h₂, hc⟩ | ⟨h, hc⟩ := classDown_cases (unbiasedExp F a) <;> rw [hc]
    · rw [packWith_over hz h, packOver, Nat.or_assoc, ← apply_ite]
    · exact packWith_normal hz h₁ h₂
    · exact packWith_sub hz h₁ h₂
    · rw [packWith_tiny h, Nat.or_zero]

theorem pack_eq_packLow (F : Format) (a : Nat) :
    pack F a = packSign (signField F a) ||| packLow Config.nan16Sig F (expField F a) (sigField F a) :=
  packWith_eq_packLow _ F a

section Cases

variable {n : Nat} {F : Format} {ef f : Nat}

theorem packLow_of_tiny (h : (ef : Int) - F.bias < -24) : packLow n F ef f = 0 := by
  simp only [packLow, classDown_tiny h, ite_self]

/-- Only the NaN's bits depend on the parameter. -/
theorem packLow_of_nan (hF : IsWide F) (he : ef = F.expFieldMax) (hf : f ≠ 0) :
    packLow n F ef f = infField16 ||| n := by
  have hbias := bias_ge_of_isWide hF
  have hmax := expFieldMax_of_isWide hF
  rw [packLow, if_neg fun hz => hf hz.2, classDown_over (by omega), if_pos ⟨he, hf⟩]

theorem packLow_of_over (h : 15 < (ef : Int) - F.bias) (hnan : ¬(ef = F.expFieldMax ∧ f ≠ 0)) :
    packLow n F ef f = 0x7C00 := by
  rw [packLow, if_neg (by omega), classDown_over h, if_neg hnan]
  rfl

variable (hF : IsWide F)

include hF

theorem packLow_of_sub (h₁ : -24 ≤ (ef : Int) - F.bias) (h₂ : (ef : Int) - F.bias ≤ -15) :
    packLow n F ef f = round10 (2 ^ F.sigBits + f) (subshift ((ef : Int) - F.bias) F.sigBits) := by
  have hbias := bias_ge_of_isWide hF
  rw [packLow, if_neg (by omega), classDown_sub h₁ h₂, implicitBit]

theorem packLow_of_normal (h₁ : -14 ≤ (ef : Int) - F.bias) (h₂ : (ef : Int) - F.bias ≤ 15) :
    packLow n F ef f = ((ef : Int) - F.bias + 15).toNat * 2 ^ 10 + round10 f (F.sigBits - 10) := by
  have hbias := bias_ge_of_isWide hF
  rw [packLow, if_neg (by omega), classDown_normal h₁ h₂, rebiasDown_eq_toNat h₁ h₂, Nat.shiftLeft_eq]

/-- No operand but a NaN goes past the infinity pattern: a carry at exponent 30 ends on it. -/
theorem packLow_le (hf : f < 2 ^ F.sigBits) (hnan : ¬(ef = F.expFieldMax ∧ f ≠ 0)) : packLow n F ef f ≤ 0x7C00 := by
  obtain ⟨h, -⟩ | ⟨h₁, h₂, -⟩ | ⟨h₁, h₂, -⟩ | ⟨h, -⟩ := classDown_cases ((ef : Int) - F.bias)
  · rw [packLow_of_over h hnan]
  · have hr := round10_normal_le hf
    rw [keptBits_eq] at hr
    rw [packLow_of_normal hF h₁ h₂]
    omega
  · have hr := round10_sub_le hf h₂
    rw [implicitBit] at hr
    rw [packLow_of_sub hF h₁ h₂]
    omega
  · rw [packLow_of_tiny h]
    exact Nat.zero_le _

theorem packLow_lt (hn : n < 2 ^ 10) (hf : f < 2 ^ F.sigBits) : packLow n F ef f < 2 ^ 15 := by
  by_cases hnan : ef = F.expFieldMax ∧ f ≠ 0
  · rw [packLow_of_nan hF hnan.1 hnan.2]
    exact Nat.or_lt_two_pow (by decide) (hn.trans (by decide))
  · exact (packLow_le hF hf hnan).trans_lt (by decide)

/-- The parameter shows in a NaN only (U1). -/
theorem packLow_eq_of_not_nan {m : Nat} (hnan : ¬(ef = F.expFieldMax ∧ f ≠ 0)) :
    packLow n F ef f = packLow m F ef f := by
  obtain ⟨h, -⟩ | ⟨h₁, h₂, -⟩ | ⟨h₁, h₂, -⟩ | ⟨h, -⟩ := classDown_cases ((ef : Int) - F.bias)
  · rw [packLow_of_over h hnan, packLow_of_over h hnan]
  · rw [packLow_of_normal hF h₁ h₂, packLow_of_normal hF h₁ h₂]
  · rw [packLow_of_sub hF h₁ h₂, packLow_of_sub hF h₁ h₂]
  · rw [packLow_of_tiny h, packLow_of_tiny h]

end Cases

/-! ### A sign over fifteen bits: fields and class -/

section SignOver

variable {s x : Nat} (hs : s ≤ 1) (hx : x < 2 ^ 15)

include hs hx

theorem fields_packSign_or :
    signField Config.half (packSign s ||| x) = s ∧ expField Config.half (packSign s ||| x) = x / 2 ^ 10 ∧
    sigField Config.half (packSign s ||| x) = x % 2 ^ 10 := by
  rw [packSign_or_eq_add s hx]
  exact fields_of_sign_add (F := Config.half) hs hx

theorem packSign_or_lt : packSign s ||| x < 2 ^ 16 := by
  rw [packSign_or_eq_add s hx]
  omega

theorem classify_packSign_or_eq_nan_iff : classify Config.half (packSign s ||| x) = .nan ↔ 0x7C00 < x := by
  obtain ⟨-, he, hf⟩ := fields_packSign_or hs hx
  rw [classify_eq_nan_iff, he, hf, half_expFieldMax]
  omega

theorem classify_packSign_or_eq_infinity_iff : classify Config.half (packSign s ||| x) = .infinity ↔ x = 0x7C00 := by
  obtain ⟨-, he, hf⟩ := fields_packSign_or hs hx
  rw [classify_eq_infinity_iff, he, hf, half_expFieldMax]
  omega

theorem classify_packSign_or_eq_zero_iff : classify Config.half (packSign s ||| x) = .zero ↔ x = 0 := by
  obtain ⟨-, he, hf⟩ := fields_packSign_or hs hx
  rw [classify_eq_zero_iff, he, hf]
  omega

end SignOver

/-! ### The result's fields and class -/

section Packed

variable {F : Format} (hF : IsWide F) (a : Nat)

include hF

theorem packLow_nan16Sig_lt : packLow Config.nan16Sig F (expField F a) (sigField F a) < 2 ^ 15 :=
  packLow_lt hF (by decide) (sigField_lt F a)

theorem fields_pack :
    signField Config.half (pack F a) = signField F a ∧
    expField Config.half (pack F a) = packLow Config.nan16Sig F (expField F a) (sigField F a) / 2 ^ 10 ∧
    sigField Config.half (pack F a) = packLow Config.nan16Sig F (expField F a) (sigField F a) % 2 ^ 10 := by
  rw [pack_eq_packLow]
  exact fields_packSign_or (signField_le_one F a) (packLow_nan16Sig_lt hF a)

theorem signField_pack : signField Config.half (pack F a) = signField F a := (fields_pack hF a).1

theorem pack_lt : pack F a < 2 ^ 16 := by
  rw [pack_eq_packLow]
  exact packSign_or_lt (signField_le_one F a) (packLow_nan16Sig_lt hF a)

end Packed

theorem not_isNan_iff {F : Format} (hF : IsWide F) {a : Nat} :
    classify F a ≠ .nan ↔ ¬(expField F a = F.expFieldMax ∧ sigField F a ≠ 0) := by
  have hmax := expFieldMax_of_isWide hF
  rw [Ne, classify_eq_nan_iff]
  omega

/-- A NaN packs, for every value of the parameter, to a NaN with that significand field (U1). -/
theorem fields_packWith_of_nan {n : Nat} {F : Format} (hF : IsWide F) (hn : n < 2 ^ 10) {a : Nat}
    (hc : classify F a = .nan) :
    expField Config.half (packWith n F a) = 31 ∧ sigField Config.half (packWith n F a) = n := by
  obtain ⟨-, he, hf⟩ := classify_eq_nan_iff.mp hc
  have hsum : infField16 ||| n = 31 * 2 ^ 10 + n := (Nat.shiftLeft_add_eq_or_of_lt (a := 31) hn).symm
  obtain ⟨-, hexp, hsig⟩ := fields_packSign_or (signField_le_one F a) (x := infField16 ||| n) (by omega)
  rw [packWith_eq_packLow, packLow_of_nan hF he hf, hexp, hsig, hsum]
  omega

theorem classify_pack_ne_nan {F : Format} (hF : IsWide F) {a : Nat} (hc : classify F a ≠ .nan) :
    classify Config.half (pack F a) ≠ .nan := by
  rw [pack_eq_packLow, Ne, classify_packSign_or_eq_nan_iff (signField_le_one F a) (packLow_nan16Sig_lt hF a), not_lt]
  exact packLow_le hF (sigField_lt F a) ((not_isNan_iff hF).mp hc)

/-! ### Statements about the packer's cases -/

/-- Settles O31: the infinity of the sign, or the canonical NaN of the sign. -/
theorem packOverRangeGivesInfinityOrNan : Obligations.PackOverRangeGivesInfinityOrNan := by
  intro F a hF _
  have hmax := expFieldMax_of_isWide hF
  have hbias := bias_ge_of_isWide hF
  refine ⟨fun _ he hf => ?nan, fun hover hnan => ?infinity, fun he => ?field⟩
  case nan =>
    rw [pack_eq_packLow, packLow_of_nan hF he hf]
    exact ⟨fun hs => by rw [hs]; rfl, fun hs => by rw [hs]; rfl⟩
  case infinity =>
    rw [pack_eq_packLow, packLow_of_over hover hnan]
    exact ⟨fun hs => by rw [hs]; rfl, fun hs => by rw [hs]; rfl⟩
  case field =>
    have hexp : unbiasedExp F a = F.bias + 1 := by
      rw [unbiasedExp, he, ← Format.expFieldMax]
      omega
    exact ⟨hexp, by omega⟩

/-- Rounding moves a value up by half a unit at most. -/
theorem two_pow_mul_round10_le (v : Nat) {sh : Nat} (hsh : 1 ≤ sh) : 2 ^ sh * round10 v sh ≤ v + 2 ^ (sh - 1) := by
  have hsum := Nat.div_add_mod v (2 ^ sh)
  have hhalf : 2 ^ sh = 2 * 2 ^ (sh - 1) := by rw [← pow_succ', Nat.sub_add_cancel hsh]
  obtain ⟨_, hr⟩ | ⟨_, hr⟩ | ⟨_, hr⟩ := round10_cases v hsh
  · rw [hr]
    omega
  · obtain hq | hq := Nat.mod_two_eq_zero_or_one (v / 2 ^ sh) <;> rw [hr, hq, Nat.mul_add] <;> omega
  · rw [hr, Nat.mul_add]
    omega

/-- On the subnormal path the carry to 1024 needs `e = -15` and the top ten significand bits set (R95). -/
theorem round10_sub_eq_1024_iff {F : Format} (hF : IsWide F) {f : Nat} (hf : f < 2 ^ F.sigBits) {e : Int}
    (h : e ≤ -15) :
    round10 (2 ^ F.sigBits + f) (subshift e F.sigBits) = 1024 ↔
      e = -15 ∧ 2 ^ F.sigBits - 2 ^ (F.sigBits - 10) ≤ f := by
  have hM := keptBits_le_sigBits hF
  have hsh := subshift_cast hM h
  have hle : 2 ^ (F.sigBits - 10) ≤ 2 ^ F.sigBits := Nat.pow_le_pow_right two_pos (Nat.sub_le _ _)
  have hdouble : 2 ^ (F.sigBits + 1) = 2 ^ F.sigBits + 2 ^ F.sigBits := by rw [pow_succ, Nat.mul_two]
  constructor
  · intro hr
    have he : e = -15 := by
      by_contra hne
      have hlow : 2 ^ F.sigBits + f < 2 ^ (subshift e F.sigBits + 9) :=
        calc 2 ^ F.sigBits + f < 2 ^ (F.sigBits + 1) := by omega
          _ ≤ 2 ^ (subshift e F.sigBits + 9) := Nat.pow_le_pow_right two_pos (by omega)
      have hsmall := round10_le_two_pow hlow
      omega
    subst he
    have hshift : subshift (-15) F.sigBits = F.sigBits - 9 := by omega
    have hup := two_pow_mul_round10_le (2 ^ F.sigBits + f) (sh := F.sigBits - 9) (by omega)
    rw [← hshift, hr, hshift, show F.sigBits - 9 - 1 = F.sigBits - 10 by omega, show 1024 = 2 ^ 10 from rfl, ← pow_add,
      show F.sigBits - 9 + 10 = F.sigBits + 1 by omega] at hup
    exact ⟨rfl, by omega⟩
  · rintro ⟨rfl, hge⟩
    have hshift : subshift (-15) F.sigBits = F.sigBits - 9 := by omega
    rw [hshift]
    refine round10_carry (n := 10) (by decide) (by omega) ?_ ?_ <;>
      rw [show F.sigBits - 9 + 10 = F.sigBits + 1 by omega]
    · rw [show F.sigBits - 9 - 1 = F.sigBits - 10 by omega]
      omega
    · omega

theorem pack_of_sub {F : Format} (hF : IsWide F) {a : Nat} (h₁ : -24 ≤ unbiasedExp F a)
    (h₂ : unbiasedExp F a ≤ -15) :
    pack F a = packSign (signField F a) |||
      round10 (2 ^ F.sigBits + sigField F a) (subshift (unbiasedExp F a) F.sigBits) := by
  rw [pack_eq_packLow, packLow_of_sub hF h₁ h₂]
  rfl

/-- Settles O32: the result is the sign over the rounding result, whose range and carry are known. -/
theorem packSubnormalRange : Obligations.PackSubnormalRange := by
  intro F a hF _ h₁ h₂
  have hf := sigField_lt F a
  obtain ⟨-, hrange, -⟩ := roundingRangeOnBothPaths F _ hF hf
  obtain ⟨-, -, hr₁, hr₂⟩ := hrange _ h₁ h₂
  have hcarry := round10_sub_eq_1024_iff hF hf h₂
  have hshift : subshift (unbiasedExp F a) F.sigBits = (-14 - unbiasedExp F a + (F.sigBits - 10)).toNat := rfl
  have hpack := pack_of_sub hF h₁ h₂
  rw [← hshift]
  generalize round10 (2 ^ F.sigBits + sigField F a) (subshift (unbiasedExp F a) F.sigBits) = r at *
  refine ⟨r, rfl, hr₁, hr₂, hpack, fun hlt => ?_, hcarry, fun hr => by rw [hpack, hr]; rfl⟩
  obtain ⟨-, he, hsig⟩ := fields_packSign_or (signField_le_one F a) (x := r) (by omega)
  rw [hpack, he, hsig]
  omega

/-- Settles O34: the fields of the fifteen bits, range by range. -/
theorem packAssembly : Obligations.PackAssembly := by
  intro F a hF _
  obtain ⟨hsign, hexp, hsig⟩ := fields_pack hF a
  refine ⟨pack_lt hF a, ?parts, hsign, fun h₁ h₂ => ?normal, fun h₁ h₂ => ?sub, fun h => ?above, fun h => ?tiny⟩
  case parts =>
    have hparts := assemble_fields (F := Config.half) (pack_lt hF a)
    rw [hsign] at hparts
    exact hparts.symm
  case normal =>
    have hle := round10_normal_le (sigField_lt F a)
    rw [keptBits_eq] at hle
    rw [hexp, hsig, packLow_of_normal hF h₁ h₂, ← unbiasedExp, Nat.shiftRight_eq_div_pow,
      Nat.and_two_pow_sub_one_eq_mod _ 10]
    omega
  case sub =>
    rw [hexp, hsig, packLow_of_sub hF h₁ h₂, ← unbiasedExp, Nat.shiftRight_eq_div_pow,
      Nat.and_two_pow_sub_one_eq_mod _ 10]
    exact ⟨rfl, rfl⟩
  case above =>
    rw [hexp, hsig]
    by_cases hnan : expField F a = F.expFieldMax ∧ sigField F a ≠ 0
    · rw [packLow_of_nan hF hnan.1 hnan.2]
      decide
    · rw [packLow_of_over h hnan]
      decide
  case tiny =>
    rw [hexp, hsig, packLow_of_tiny h]
    decide

/-- Settles O35: the parameter is the significand field of a NaN's result, and no part of any other. -/
theorem packedNanHoldsForEveryParameter : Obligations.PackedNanHoldsForEveryParameter := by
  intro n F a h₁ h₂ hF _
  refine ⟨fun hc => ?nan, fun hc => ⟨?other, classify_pack_ne_nan hF hc⟩⟩
  case nan =>
    obtain ⟨he, hf⟩ := fields_packWith_of_nan (n := n) hF (by omega) hc
    refine ⟨he, hf, ?_⟩
    rw [classify_eq_nan_iff, he, hf, half_expFieldMax]
    omega
  case other =>
    rw [pack_eq_packLow, packWith_eq_packLow, packLow_eq_of_not_nan hF ((not_isNan_iff hF).mp hc)]

/-- Settles O36: the exponent field tells the case. -/
theorem specialWidePatternsLand : Obligations.SpecialWidePatternsLand := by
  intro F a hF _
  have hbias := bias_ge_of_isWide hF
  have hmax := expFieldMax_of_isWide hF
  refine ⟨fun hc => ?zero, fun hc => ?subnormal, fun hc => ?special, fun hc => ?normal⟩
  case zero => exact pack_of_expField_zero hF (classify_eq_zero_iff.mp hc).1
  case subnormal =>
    obtain ⟨he, -⟩ := classify_eq_subnormal_iff.mp hc
    exact ⟨unbiasedExp_of_expField_zero he, classDown_tiny (unbiasedExp_lt_of_expField_zero hF he),
      pack_of_expField_zero hF he⟩
  case special =>
    have he := expField_of_infinity_or_nan hc
    have hu : unbiasedExp F a = F.bias + 1 := by
      rw [unbiasedExp, he]
      omega
    exact ⟨hu, classDown_over (by omega)⟩
  case normal =>
    obtain ⟨-, hN, hS, -⟩ := classDownRanges (unbiasedExp F a)
    rw [hN, hS, unbiasedExp] at hc
    rw [classify_eq_normal_iff]
    omega

/-! ### The sign passes through (R104) -/

theorem signField_xor_signMask (F : Format) (a : Nat) : signField F (a ^^^ signMask F) = 1 - signField F a := by
  rw [signField_eq_div_mod, signField_eq_div_mod, signMask, signShift, Nat.xor_div_two_pow,
    Nat.div_self (Nat.two_pow_pos _), Nat.xor_mod_two_eq]
  omega

theorem expField_xor_signMask (F : Format) (a : Nat) : expField F (a ^^^ signMask F) = expField F a := by
  rw [expField_eq_div_mod, expField_eq_div_mod, signMask, signShift, Nat.xor_div_two_pow, Nat.xor_mod_two_pow, pow_add,
    Nat.mul_div_cancel _ (Nat.two_pow_pos _), Nat.mod_self, Nat.xor_zero]

theorem sigField_xor_signMask (F : Format) (a : Nat) : sigField F (a ^^^ signMask F) = sigField F a := by
  rw [sigField_eq_mod, sigField_eq_mod, signMask, signShift, Nat.xor_mod_two_pow, pow_add, Nat.mul_mod_left,
    Nat.xor_zero]

theorem xor_signMask_lt {F : Format} {a : Nat} (ha : a < 2 ^ F.width) : a ^^^ signMask F < 2 ^ F.width := by
  refine Nat.xor_lt_two_pow ha (Nat.pow_lt_pow_right one_lt_two ?_)
  rw [Format.width, signShift]
  omega

/-- Patterns are equal when their fields are. -/
theorem eq_of_fields {F : Format} {a b : Nat} (ha : a < 2 ^ F.width) (hb : b < 2 ^ F.width)
    (hs : signField F a = signField F b) (he : expField F a = expField F b) (hf : sigField F a = sigField F b) :
    a = b := by
  rw [← assemble_fields ha, ← assemble_fields hb, hs, he, hf]

/-- Settles O39: both sides have the flipped sign over the same fifteen bits. -/
theorem packSignSymmetry : Obligations.PackSignSymmetry := by
  intro F a hF _
  obtain ⟨hsign, hexp, hsig⟩ := fields_pack hF a
  obtain ⟨hsign', hexp', hsig'⟩ := fields_pack hF (a ^^^ signMask F)
  rw [expField_xor_signMask, sigField_xor_signMask] at hexp' hsig'
  rw [signField_xor_signMask] at hsign'
  refine eq_of_fields (F := Config.half) (pack_lt hF _) (xor_signMask_lt (F := Config.half) (pack_lt hF a)) ?_ ?_ ?_
  · exact hsign'.trans (hsign ▸ signField_xor_signMask Config.half (pack F a)).symm
  · exact hexp'.trans (hexp ▸ expField_xor_signMask Config.half (pack F a)).symm
  · exact hsig'.trans (hsig ▸ sigField_xor_signMask Config.half (pack F a)).symm

end Sys2Proof.Machine
end

section
/-! SUPPORT. Operand and result lanes (30_encoding.md R53, R54): the output function reads the lane only, each result
fits its lane, and the statements O10 and O11. -/

namespace Sys2Proof.Machine

open Sys2Proof.Rules

/-! ### Operand lanes -/

theorem halfOperand_eq_low (a : Word) : halfOperand a = low 16 a := Nat.and_two_pow_sub_one_eq_mod _ _

theorem wideOperand_eq_low (op : OpCode) (a : Word) : wideOperand op a = low (wideFormat op).width a :=
  Nat.and_two_pow_sub_one_eq_mod _ _

theorem wideFormat_isWide (op : OpCode) : IsWide (wideFormat op) := by
  rw [wideFormat]
  split
  · exact .inl rfl
  · exact .inr rfl

theorem sixteen_le_width {F : Format} (hF : IsWide F) : 16 ≤ F.width := by
  obtain rfl | rfl := hF <;> decide

theorem width_le_sixtyFour {F : Format} (hF : IsWide F) : F.width ≤ 64 := by
  obtain rfl | rfl := hF <;> decide

theorem low_eq_of_le {m n : Nat} (h : m ≤ n) {a b : Word} (hab : low n a = low n b) : low m a = low m b := by
  have hdvd : 2 ^ m ∣ 2 ^ n := pow_dvd_pow 2 h
  rw [low, low, ← Nat.mod_mod_of_dvd a.toNat hdvd, ← Nat.mod_mod_of_dvd b.toNat hdvd]
  exact congrArg (· % 2 ^ m) hab

/-- The output function reads the lane of `A` only (R53). -/
theorem outputs_congr_lane {op : OpCode} {a b : Word} (h : low (laneBits op) a = low (laneBits op) b) :
    outputs op a = outputs op b := by
  by_cases hfn : fnField op = 1
  · rw [laneBits, if_pos hfn] at h
    simp only [outputs, hfn, halfOperand_eq_low, h]
  · rw [laneBits, if_neg hfn] at h
    rw [outputs, outputs, wideOperand_eq_low, wideOperand_eq_low, halfOperand_eq_low, halfOperand_eq_low, h,
      low_eq_of_le (sixteen_le_width (wideFormat_isWide op)) h]

theorem laneBits_encode (i : Instr) : laneBits (encode i) = laneOf i := by
  cases i <;> rfl

/-- Settles O10: the output function reads the lane, and every operation delivers its value. -/
theorem bitsAboveTheLaneAreIgnored : Obligations.BitsAboveTheLaneAreIgnored := by
  refine ⟨laneBits_encode, fun i s b hab => ⟨(outputs (encode i) s.a).y, exec_eq_deliver_outputs i s, ?_⟩⟩
  rw [outputs_congr_lane (laneBits_encode i ▸ hab)]
  exact exec_eq_deliver_outputs i _

/-! ### Result lanes -/

theorem low_sixtyFour (a : Word) : low 64 a = a.toNat := Nat.mod_eq_of_lt a.isLt

theorem exists_answers_zext64 {i : Instr} {s : State} {v n : Nat} (h : exec i s = answers s (zext64 v))
    (hn : n ≤ 64) (hv : v < 2 ^ n) : ∃ w : Word, exec i s = answers s w ∧ w.toNat = v ∧ w.toNat < 2 ^ n := by
  have hw : (zext64 v).toNat = v := zext64_toNat (hv.trans_le (Nat.pow_le_pow_right two_pos hn))
  exact ⟨_, h, hw, hw.symm ▸ hv⟩

theorem sext64_unbiasedExp_toInt {F : Format} (hF : IsWide F) (a : Nat) :
    (sext64 (unbiasedExp F a)).toInt = unbiasedExp F a := by
  have hbias : F.bias ≤ 1023 := by obtain rfl | rfl := hF <;> decide
  have hge := unbiasedExp_ge F a
  have hle := unbiasedExp_le hF a
  exact BitVec.toInt_ofInt_eq_self (by decide) (by omega) (by omega)

theorem exists_answers_sext64 {i : Instr} {s : State} {F : Format} (hF : IsWide F) {a : Nat}
    (h : exec i s = answers s (sext64 (unbiasedExp F a))) :
    ∃ w : Word, exec i s = answers s w ∧ w.toInt = unbiasedExp F a :=
  ⟨_, h, sext64_unbiasedExp_toInt hF a⟩

/-- Settles O11, operation by operation. -/
theorem resultLanes : Obligations.ResultLanes := by
  have hs : IsWide Config.single := .inl rfl
  have hd : IsWide Config.double := .inr rfl
  refine ⟨fun s => ?_, fun op a h => outputs_of_reserved h a⟩
  rw [low_sixtyFour]
  refine ⟨?pack32, ?pack64, ?unpack32, ?unpack64, ?getexp32, ?getexp64, ?getsign32, ?getsign64, ?getsig32, ?getsig64⟩
  case pack32 =>
    exact exists_answers_zext64 (n := 16) (by rw [pack_single]; exact exec_pack32 s) (by decide) (pack_lt hs _)
  case pack64 =>
    exact exists_answers_zext64 (n := 16) (by rw [pack_double]; exact exec_pack64 s) (by decide) (pack_lt hd _)
  case unpack32 =>
    exact exists_answers_zext64 (n := 32) (by rw [unpack_single]; exact exec_unpack32 s) (by decide) (unpack_lt hs _)
  case unpack64 =>
    obtain ⟨w, hw, hv, -⟩ := exists_answers_zext64 (n := 64) (v := unpack Config.double (low 16 s.a))
      (by rw [unpack_double]; exact exec_unpack64 s) le_rfl (unpack_lt hd _)
    exact ⟨w, hw, hv⟩
  case getexp32 => exact exists_answers_sext64 hs (exec_getexp32 s)
  case getexp64 => exact exists_answers_sext64 hd (exec_getexp64 s)
  case getsign32 =>
    exact exists_answers_zext64 (n := 1) (exec_getsign32 s) (by decide) (Nat.lt_succ_of_le (signField_le_one _ _))
  case getsign64 =>
    exact exists_answers_zext64 (n := 1) (exec_getsign64 s) (by decide) (Nat.lt_succ_of_le (signField_le_one _ _))
  case getsig32 => exact exists_answers_zext64 (n := 23) (exec_getsig32 s) (by decide) (sigField_lt Config.single _)
  case getsig64 => exact exists_answers_zext64 (n := 52) (exec_getsig64 s) (by decide) (sigField_lt Config.double _)

end Sys2Proof.Machine
end

section
/-! SUPPORT. The unpacker's laws (43_unpacker.md R115, R116): the class and the value of its result, the patterns it
reaches, and the statements O44 and O45. -/

namespace Sys2Proof.Machine

open Sys2Proof.Rules

/-! ### Classes -/

/-- The class UNPACK makes of a class: a half subnormal becomes a wide normal (R115). -/
def unpackClass : PatternClass → PatternClass
  | .zero => .zero
  | .subnormal => .normal
  | .normal => .normal
  | .infinity => .infinity
  | .nan => .nan

theorem unpackClass_eq_nan_iff {c : PatternClass} : unpackClass c = .nan ↔ c = .nan := by
  cases c <;> simp [unpackClass]

theorem unpackClass_eq_infinity_iff {c : PatternClass} : unpackClass c = .infinity ↔ c = .infinity := by
  cases c <;> simp [unpackClass]

section Unpacked

variable {F : Format} (hF : IsWide F) {h : Nat}

theorem sigField_unpack_of_zero (hc : classify Config.half h = .zero) : sigField F (unpack F h) = 0 := by
  obtain ⟨he, hf⟩ := classify_eq_zero_iff.mp hc
  rw [unpack_zero he hf]
  exact sigField_assemble (signField_le_one _ h) (Nat.two_pow_pos _) (Nat.two_pow_pos _)

theorem topBit_sigField_le_nine (hc : classify Config.half h = .subnormal) : topBit (sigField Config.half h) ≤ 9 :=
  topBit_le_nine (classify_eq_subnormal_iff.mp hc).2 (sigField_lt Config.half h)

include hF

/-- The wide significand of a half subnormal with its implicit bit is the half significand moved up (R109). -/
theorem sigField_unpack_of_subnormal (hc : classify Config.half h = .subnormal) :
    2 ^ F.sigBits + sigField F (unpack F h) =
      sigField Config.half h * 2 ^ (F.sigBits - topBit (sigField Config.half h)) := by
  obtain ⟨he, hf⟩ := classify_eq_subnormal_iff.mp hc
  have hlt : sigField Config.half h < 2 ^ 10 := sigField_lt Config.half h
  have htop := topBit_le_nine hf hlt
  have hsig : (sigField Config.half h <<< (10 - topBit (sigField Config.half h))) &&& sigMask Config.half < 2 ^ 10 :=
    sigField_lt Config.half _
  rw [unpack_sub he hf, unpackSub, leadpos_eq_topBit hf hlt,
    sigField_assemble (signField_le_one _ h) (rebiasUpSub_lt hF htop) (toWideSig_lt hF hsig)]
  exact implicitBit_add_toWideSig hF hf hlt

theorem sigField_unpack_of_normal (hc : classify Config.half h = .normal) :
    sigField F (unpack F h) = toWideSig F (sigField Config.half h) := by
  obtain ⟨h₁, h₂⟩ := classify_eq_normal_iff.mp hc
  rw [unpack_normal h₁ h₂]
  exact sigField_assemble (signField_le_one _ h) (rebiasUp_lt hF (Nat.le_of_lt_succ (expField_lt Config.half h)))
    (toWideSig_lt hF (sigField_lt Config.half h))

theorem classify_unpack (h : Nat) : classify F (unpack F h) = unpackClass (classify Config.half h) := by
  have hbias := bias_ge_of_isWide hF
  have hmax := expFieldMax_of_isWide hF
  cases hc : classify Config.half h with
  | zero => exact classify_eq_zero_iff.mpr ⟨expField_unpack_of_zero hc, sigField_unpack_of_zero hc⟩
  | subnormal =>
    have hup := rebiasUpSub_cast hF (topBit (sigField Config.half h))
    have htop := topBit_sigField_le_nine hc
    rw [unpackClass, classify_eq_normal_iff, expField_unpack_of_subnormal hF hc]
    omega
  | normal =>
    obtain ⟨h₁, h₂⟩ := classify_eq_normal_iff.mp hc
    have hup := rebiasUp_cast hF (expField Config.half h)
    have hlt := expField_lt Config.half h
    rw [half_expFieldMax] at h₂
    rw [half_expBits] at hlt
    rw [unpackClass, classify_eq_normal_iff, expField_unpack_of_normal hF hc]
    omega
  | infinity => exact classify_unpack_of_infinity hF hc
  | nan => exact classify_unpack_of_nan hF hc

end Unpacked

/-! ### Values (R11) -/

theorem cast_mul_two_pow_mul_two_zpow (n k : Nat) {i j : Int} (h : j + k = i) :
    ((n * 2 ^ k : Nat) : ℚ) * (2 : ℚ) ^ j = n * (2 : ℚ) ^ i := by
  rw [← h, zpow_add₀ two_ne_zero, zpow_natCast]
  push_cast
  ring

theorem magnitude_of_expField_zero {F : Format} {a : Nat} (h : expField F a = 0) :
    magnitude F a = sigField F a * (2 : ℚ) ^ ((1 : ℤ) - F.bias - F.sigBits) := if_pos h

/-- The magnitude of a pattern with an implicit bit, over its whole significand. -/
theorem magnitude_of_expField_ne_zero {F : Format} {a : Nat} (h : expField F a ≠ 0) :
    magnitude F a = ((2 ^ F.sigBits + sigField F a : Nat) : ℚ) * (2 : ℚ) ^ (unbiasedExp F a - F.sigBits) := by
  rw [magnitude, if_neg h, ← unbiasedExp, zpow_sub₀ two_ne_zero, zpow_natCast]
  push_cast
  field_simp

theorem val_of_finite {F : Format} {a : Nat} (hi : classify F a ≠ .infinity) (hn : classify F a ≠ .nan) :
    val F a = .number (signField F a) (finiteValue F a) := by
  rw [val]
  split <;> simp_all

theorem val_of_infinity {F : Format} {a : Nat} (h : classify F a = .infinity) :
    val F a = .infinity (signField F a) := by
  rw [val, h]

section Unpacked

variable {F : Format} (hF : IsWide F) {h : Nat}

include hF

/-- Unpacking keeps the magnitude of a finite pattern, class by class. -/
theorem magnitude_unpack (hi : classify Config.half h ≠ .infinity) (hn : classify Config.half h ≠ .nan) :
    magnitude F (unpack F h) = magnitude Config.half h := by
  have hM := keptBits_le_sigBits hF
  have hbias := bias_ge_of_isWide hF
  cases hc : classify Config.half h with
  | zero =>
    obtain ⟨he, hf⟩ := classify_eq_zero_iff.mp hc
    rw [magnitude_of_expField_zero (expField_unpack_of_zero hc), magnitude_of_expField_zero he, hf,
      sigField_unpack_of_zero hc, Nat.cast_zero, zero_mul, zero_mul]
  | subnormal =>
    have htop := topBit_sigField_le_nine hc
    have hup := rebiasUpSub_cast hF (topBit (sigField Config.half h))
    have hexp := expField_unpack_of_subnormal hF hc
    rw [magnitude_of_expField_ne_zero (by omega), sigField_unpack_of_subnormal hF hc, unbiasedExp, hexp, hup,
      magnitude_of_expField_zero (classify_eq_subnormal_iff.mp hc).1]
    refine cast_mul_two_pow_mul_two_zpow _ _ ?_
    rw [half_bias, half_sigBits]
    omega
  | normal =>
    obtain ⟨h₁, -⟩ := classify_eq_normal_iff.mp hc
    have hup := rebiasUp_cast hF (expField Config.half h)
    have hexp := expField_unpack_of_normal hF hc
    rw [magnitude_of_expField_ne_zero (by omega), magnitude_of_expField_ne_zero h₁, sigField_unpack_of_normal hF hc,
      unbiasedExp, unbiasedExp, hexp, hup, toWideSig, Nat.shiftLeft_eq, keptBits_eq, ← pow_mul_pow_sub 2 hM,
      ← Nat.add_mul]
    refine cast_mul_two_pow_mul_two_zpow _ _ ?_
    rw [half_bias, half_sigBits]
    omega
  | infinity => exact absurd hc hi
  | nan => exact absurd hc hn

theorem val_unpack (hn : classify Config.half h ≠ .nan) : val F (unpack F h) = val Config.half h := by
  have hclass := classify_unpack hF h
  by_cases hi : classify Config.half h = .infinity
  · rw [hi] at hclass
    rw [val_of_infinity hi, val_of_infinity hclass, signField_unpack hF]
  · have hi' : classify F (unpack F h) ≠ .infinity := by rwa [hclass, Ne, unpackClass_eq_infinity_iff]
    have hn' : classify F (unpack F h) ≠ .nan := by rwa [hclass, Ne, unpackClass_eq_nan_iff]
    rw [val_of_finite hi hn, val_of_finite hi' hn', finiteValue, finiteValue, signField_unpack hF,
      magnitude_unpack hF hi hn]

end Unpacked

/-- A NaN's value does not show its sign or payload. -/
theorem val_of_nan {F : Format} {a : Nat} (h : classify F a = .nan) : val F a = .nan := by
  rw [val, h]

/-- The two unpacks of one half pattern have one value, NaNs included (R115, R124). -/
theorem val_unpack_double_eq_single (h : Nat) :
    val Config.double (unpack Config.double h) = val Config.single (unpack Config.single h) := by
  by_cases hn : classify Config.half h = .nan
  · rw [val_of_nan (classify_unpack_of_nan (.inr rfl) hn), val_of_nan (classify_unpack_of_nan (.inl rfl) hn)]
  · rw [val_unpack (.inr rfl) hn, val_unpack (.inl rfl) hn]

/-- Settles O44: by the class and the value of the result. -/
theorem unpackIsExact : Obligations.UnpackIsExact := by
  refine ⟨fun F h hF _ => ?_, fun h _ => val_unpack_double_eq_single h⟩
  have hclass := classify_unpack hF h
  exact ⟨val_unpack hF, fun hc => ⟨classify_unpack_of_nan hF hc, signField_unpack hF h⟩,
    fun hc => by rw [hclass, hc]; rfl, fun hc => by rw [hclass, hc]; rfl, fun hc => by rw [hclass, hc]; rfl,
    fun hc => by rw [hclass, hc]; rfl⟩

/-! ### One-to-one (R116) -/

theorem toWideSig_injective {F : Format} {x y : Nat} (h : toWideSig F x = toWideSig F y) : x = y := by
  rw [toWideSig, toWideSig, Nat.shiftLeft_eq, Nat.shiftLeft_eq] at h
  exact Nat.eq_of_mul_eq_mul_right (Nat.two_pow_pos _) h

/-- A NaN shows in the result with its sign and payload, and any other pattern is got back by packing. -/
theorem unpack_injective {F : Format} (hF : IsWide F) {h g : Nat} (hh : h < 2 ^ 16) (hg : g < 2 ^ 16)
    (heq : unpack F h = unpack F g) : h = g := by
  have hnan : classify Config.half h = .nan ↔ classify Config.half g = .nan := by
    rw [← unpackClass_eq_nan_iff, ← classify_unpack hF, heq, classify_unpack hF, unpackClass_eq_nan_iff]
  by_cases hn : classify Config.half h = .nan
  · have hn' := hnan.mp hn
    have hsig : toWideSig F (sigField Config.half h) = toWideSig F (sigField Config.half g) := by
      rw [← sigField_unpack_of_infinity_or_nan hF (.inr hn), ← sigField_unpack_of_infinity_or_nan hF (.inr hn'), heq]
    refine eq_of_fields (F := Config.half) hh hg ?_ ?_ (toWideSig_injective hsig)
    · rw [← signField_unpack hF, ← signField_unpack hF, heq]
    · rw [expField_of_infinity_or_nan (.inr hn), expField_of_infinity_or_nan (.inr hn')]
  · rw [← pack_unpack_of_not_nan hF hh hn, heq, pack_unpack_of_not_nan hF hg (mt hnan.mpr hn)]

/-! ### The image (R116) -/

/-- What R116 says of the patterns UNPACK reaches, by their two lower fields. -/
def UnpackImage (F : Format) (ef f : Nat) : Prop :=
  f % 2 ^ (F.sigBits - 10) = 0 ∧
  ((ef = 0 ∧ f = 0) ∨ (F.bias - 14 ≤ ef ∧ ef ≤ F.bias + 15) ∨
    (F.bias - 24 ≤ ef ∧ ef ≤ F.bias - 15 ∧ f % 2 ^ (F.sigBits - (ef - (F.bias - 24))) = 0) ∨
    ef = 2 ^ F.expBits - 1)

theorem unpackImage_fields {F : Format} (hF : IsWide F) (h : Nat) :
    UnpackImage F (expField F (unpack F h)) (sigField F (unpack F h)) := by
  have hbias := bias_ge_of_isWide hF
  have hlow : sigField F (unpack F h) % 2 ^ (F.sigBits - 10) = 0 := by
    rw [sigField_eq_mod, Nat.mod_mod_of_dvd _ (pow_dvd_pow 2 (Nat.sub_le _ _)), unpack_mod_eq_zero hF]
  refine ⟨hlow, ?_⟩
  cases hc : classify Config.half h with
  | zero => exact .inl ⟨expField_unpack_of_zero hc, sigField_unpack_of_zero hc⟩
  | subnormal =>
    have htop := topBit_sigField_le_nine hc
    have hup := rebiasUpSub_cast hF (topBit (sigField Config.half h))
    have hsig := sigField_unpack_of_subnormal hF hc
    rw [expField_unpack_of_subnormal hF hc]
    refine .inr (.inr (.inl ⟨by omega, by omega, ?_⟩))
    rw [show F.sigBits - (rebiasUpSub (topBit (sigField Config.half h)) F - (F.bias - 24)) =
      F.sigBits - topBit (sigField Config.half h) by omega]
    refine Nat.mod_eq_zero_of_dvd ((Nat.dvd_add_right (pow_dvd_pow 2 (Nat.sub_le _ _))).mp ?_)
    rw [hsig]
    exact Nat.dvd_mul_left _ _
  | normal =>
    obtain ⟨h₁, h₂⟩ := classify_eq_normal_iff.mp hc
    have hup := rebiasUp_cast hF (expField Config.half h)
    have hlt : expField Config.half h < 2 ^ 5 := expField_lt Config.half h
    rw [half_expFieldMax] at h₂
    rw [expField_unpack_of_normal hF hc]
    exact .inr (.inl ⟨by omega, by omega⟩)
  | infinity => exact .inr (.inr (.inr (expField_unpack_of_infinity_or_nan hF (.inl hc))))
  | nan => exact .inr (.inr (.inr (expField_unpack_of_infinity_or_nan hF (.inr hc))))

theorem topBit_two_pow_add {p k : Nat} (hk : k < 2 ^ p) : topBit (2 ^ p + k) = p := by
  have hpos := Nat.two_pow_pos p
  rw [topBit, Nat.log2_eq_iff (by omega), pow_succ]
  omega

section Preimage

variable {F : Format} {s k : Nat} (hs : s ≤ 1)

include hs

theorem unpack_assemble_zero : unpack F (assemble Config.half s 0 0) = assemble F s 0 0 := by
  rw [unpack_zero (expField_assemble hs (by decide) (by decide)) (sigField_assemble hs (by decide) (by decide)),
    signField_assemble hs (by decide) (by decide)]

theorem unpack_assemble_special (hk : k < 2 ^ 10) :
    unpack F (assemble Config.half s 31 k) = assemble F s F.expFieldMax (toWideSig F k) := by
  rw [unpack_special (expField_assemble hs (by decide) hk), signField_assemble hs (by decide) hk,
    sigField_assemble hs (by decide) hk]

theorem unpack_assemble_normal {E : Nat} (h₁ : 1 ≤ E) (h₂ : E ≤ 30) (hk : k < 2 ^ 10) :
    unpack F (assemble Config.half s E k) = assemble F s (rebiasUp E F) (toWideSig F k) := by
  have hE : E < 2 ^ Config.half.expBits := by
    rw [half_expBits]
    omega
  have hexp := expField_assemble (F := Config.half) hs hE hk
  rw [unpack_normal (by omega) (by omega), hexp, signField_assemble hs hE hk, sigField_assemble hs hE hk]

/-- A half significand with the leading 1 at `p` unpacks to the bits below it, moved to the top. -/
theorem unpack_assemble_sub {p : Nat} (hF : IsWide F) (hp : p ≤ 9) (hk : k < 2 ^ p) :
    unpack F (assemble Config.half s 0 (2 ^ p + k)) = assemble F s (rebiasUpSub p F) (k * 2 ^ (F.sigBits - p)) := by
  have hM := keptBits_le_sigBits hF
  have hpos := Nat.two_pow_pos p
  have hlt : 2 ^ p + k < 2 ^ 10 :=
    calc 2 ^ p + k < 2 ^ (p + 1) := by rw [pow_succ]; omega
      _ ≤ 2 ^ 10 := Nat.pow_le_pow_right two_pos (by omega)
  have hne : 2 ^ p + k ≠ 0 := by omega
  have hsig := sigField_assemble (F := Config.half) hs (Nat.two_pow_pos _) hlt
  have htop := topBit_two_pow_add hk
  have hmoved := implicitBit_add_toWideSig hF hne hlt
  rw [htop, implicitBit, Nat.add_mul, pow_mul_pow_sub 2 (by omega : p ≤ F.sigBits)] at hmoved
  rw [unpack_sub (expField_assemble hs (Nat.two_pow_pos _) hlt) (hsig.trans_ne hne), hsig,
    signField_assemble hs (Nat.two_pow_pos _) hlt, unpackSub, leadpos_eq_topBit hne hlt, htop,
    Nat.add_left_cancel hmoved]

/-- Every pattern R116 lists is the result of a half pattern, case by case. -/
theorem exists_unpack_eq {ef f : Nat} (hF : IsWide F) (hf : f < 2 ^ F.sigBits) (himage : UnpackImage F ef f) :
    ∃ h < 2 ^ 16, unpack F h = assemble F s ef f := by
  have hM := keptBits_le_sigBits hF
  have hbias := bias_ge_of_isWide hF
  obtain ⟨hlow, hcases⟩ := himage
  obtain ⟨k, rfl⟩ := Nat.dvd_of_mod_eq_zero hlow
  have hk : k < 2 ^ 10 := by
    rw [← pow_mul_pow_sub 2 hM, Nat.mul_comm] at hf
    exact Nat.lt_of_mul_lt_mul_right hf
  have hwide : 2 ^ (F.sigBits - 10) * k = toWideSig F k := by
    rw [toWideSig, Nat.shiftLeft_eq, keptBits_eq, Nat.mul_comm]
  obtain ⟨rfl, h0⟩ | ⟨h₁, h₂⟩ | ⟨h₁, h₂, h0⟩ | rfl := hcases
  · rw [h0]
    exact ⟨_, assemble_lt (F := Config.half) hs (by decide) (by decide), unpack_assemble_zero hs⟩
  · have hup : rebiasUp (ef - (F.bias - 15)) F = ef := by
      have hcast := rebiasUp_cast hF (ef - (F.bias - 15))
      omega
    refine ⟨_, assemble_lt (F := Config.half) hs (ef := ef - (F.bias - 15)) ?_ hk, ?_⟩
    · rw [half_expBits]
      omega
    · rw [unpack_assemble_normal hs (by omega) (by omega) hk, hup, hwide]
  · obtain ⟨p, rfl⟩ : ∃ p, ef = (F.bias - 24) + p := Nat.exists_eq_add_of_le h₁
    rw [Nat.add_sub_cancel_left] at h0
    obtain ⟨m, hm⟩ := Nat.dvd_of_mod_eq_zero h0
    have hup : rebiasUpSub p F = (F.bias - 24) + p := by
      have hcast := rebiasUpSub_cast hF p
      omega
    have hmlt : m < 2 ^ p := by
      rw [hm, ← pow_mul_pow_sub 2 (by omega : p ≤ F.sigBits), Nat.mul_comm] at hf
      exact Nat.lt_of_mul_lt_mul_right hf
    have hlt : 2 ^ p + m < 2 ^ 10 :=
      calc 2 ^ p + m < 2 ^ (p + 1) := by rw [pow_succ]; omega
        _ ≤ 2 ^ 10 := Nat.pow_le_pow_right two_pos (by omega)
    refine ⟨_, assemble_lt (F := Config.half) hs (Nat.two_pow_pos _) hlt, ?_⟩
    rw [unpack_assemble_sub hs hF (by omega) hmlt, hup, hm, Nat.mul_comm m]
  · rw [hwide]
    exact ⟨_, assemble_lt (F := Config.half) hs (ef := 31) (by decide) hk, unpack_assemble_special hs hk⟩

end Preimage

/-- Settles O45: the image is read off the fields of a result, and each listed pattern has a preimage. -/
theorem unpackIsInjectiveWithImage : Obligations.UnpackIsInjectiveWithImage := by
  refine fun F hF => ⟨fun h hh g hg => unpack_injective hF hh hg, fun u hu => ⟨?_, fun himage => ?_⟩⟩
  · rintro ⟨h, -, rfl⟩
    exact unpackImage_fields hF h
  · obtain ⟨h, hh, heq⟩ := exists_unpack_eq (signField_le_one F u) hF (sigField_lt F u) himage
    exact ⟨h, hh, heq.trans (assemble_fields hu)⟩

end Sys2Proof.Machine
end

section
/-! SUPPORT. PACK and UNPACK together (42_packer.md R102, 44_properties.md R117 to R121): the image of the packer,
idempotence, classes, the round trip as a run, and the statements O37, O47, O48 and O50. -/

namespace Sys2Proof.Machine

open Sys2Proof.Rules

/-- What the packer gives is no NaN or a canonical one. -/
theorem pack_not_nan_or_canonical {F : Format} (hF : IsWide F) (a : Nat) :
    classify Config.half (pack F a) ≠ .nan ∨ pack F a = 0x7E00 ∨ pack F a = 0xFE00 := by
  by_cases hc : classify F a = .nan
  · exact .inr (pack_of_nan_cases hF hc)
  · exact .inl (classify_pack_ne_nan hF hc)

/-- Unpacking what the packer gave, and packing it again, changes nothing. -/
theorem pack_unpack_pack {F : Format} (hF : IsWide F) (a : Nat) : pack F (unpack F (pack F a)) = pack F a :=
  (roundTrip F _ hF (pack_lt hF a)).1 (pack_not_nan_or_canonical hF a)

/-- Settles O37: the packer gives no other NaN than the canonical ones, and those and the rest come back. -/
theorem packImage : Obligations.PackImage := by
  intro F h hF hh
  refine ⟨⟨?_, fun hc => ⟨unpack F h, unpack_lt hF h, (roundTrip F h hF hh).1 hc⟩⟩, ?_⟩
  · rintro ⟨a, -, rfl⟩
    exact pack_not_nan_or_canonical hF a
  · rintro ⟨a, -, rfl⟩
    exact ⟨unpack_lt hF _, pack_unpack_pack hF a⟩

/-- Settles O48: both are the round trip, at a packed pattern and at one that is no NaN. -/
theorem packUnpackIdempotence : Obligations.PackUnpackIdempotence :=
  fun F hF => ⟨fun a _ => pack_unpack_pack hF a, fun h hh hc => by rw [pack_unpack_of_not_nan hF hh hc]⟩

/-! ### Classes (R121) -/

theorem classify_pack_of_infinity {F : Format} (hF : IsWide F) {a : Nat} (hc : classify F a = .infinity) :
    classify Config.half (pack F a) = .infinity := by
  rw [pack_of_infinity hF hc, classify_packSign_or_eq_infinity_iff (signField_le_one F a) (by decide)]

theorem classify_packSign {s : Nat} (hs : s ≤ 1) : classify Config.half (packSign s) = .zero := by
  have hzero := classify_packSign_or_eq_zero_iff hs (x := 0) (by decide)
  rw [Nat.or_zero] at hzero
  exact hzero.mpr rfl

theorem classify_pack_of_expField_zero {F : Format} (hF : IsWide F) {a : Nat} (he : expField F a = 0) :
    classify Config.half (pack F a) = .zero := by
  rw [pack_of_expField_zero hF he]
  exact classify_packSign (signField_le_one F a)

theorem classify_pack_of_nan {F : Format} (hF : IsWide F) {a : Nat} (hc : classify F a = .nan) :
    classify Config.half (pack F a) = .nan := by
  rw [pack_of_nan hF hc, classify_packSign_or_eq_nan_iff (signField_le_one F a) (by decide)]
  decide

/-- Settles O50: the packer by the class of its operand, the unpacker by its class map. -/
theorem classPreservation : Obligations.ClassPreservation := by
  refine fun F hF => ⟨fun a _ => ?_, fun h _ => ⟨signField_unpack hF h, ?_⟩⟩
  · exact ⟨signField_pack hF a, fun hc => classify_pack_of_expField_zero hF (classify_eq_zero_iff.mp hc).1,
      classify_pack_of_infinity hF,
      ⟨classify_pack_of_nan hF, fun hc => by_contra fun hn => classify_pack_ne_nan hF hn hc⟩,
      fun hc => classify_pack_of_expField_zero hF (classify_eq_subnormal_iff.mp hc).1⟩
  · rw [classify_unpack hF]
    cases classify Config.half h <;> simp [unpackClass]

/-! ### The round trip as a run (R117, R153) -/

theorem outputs_of_pack {op : OpCode} (h : fnField op = 0) (a : Word) :
    outputs op a = { y := zext64 (pack (wideFormat op) (low (wideFormat op).width a)), ill := 0 } := by
  simp only [outputs, h, wideOperand_eq_low]

theorem outputs_of_unpack {op : OpCode} (h : fnField op = 1) (a : Word) :
    outputs op a = { y := zext64 (unpack (wideFormat op) (low 16 a)), ill := 0 } := by
  simp only [outputs, h, halfOperand_eq_low]

theorem toNat_lt_ten {op : OpCode} (h : fnField op ≤ 4) : op.toNat < 10 := by
  rw [fnField, Nat.shiftRight_eq_div_pow] at h
  omega

/-- The used low bits are all that the output function reads. -/
theorem outputs_usedLow (op : OpCode) (v : Word) : outputs op (usedLow op v) = outputs op v := by
  have hlane : laneBits op ≤ 64 := by
    rw [laneBits]
    split
    · decide
    · exact width_le_sixtyFour (wideFormat_isWide op)
  have hmask : 2 ^ laneBits op - 1 < 2 ^ 64 :=
    (Nat.sub_lt (Nat.two_pow_pos _) one_pos).trans_le (Nat.pow_le_pow_right two_pos hlane)
  refine outputs_congr_lane ?_
  rw [low, low, usedLow, BitVec.toNat_and, BitVec.toNat_ofNat, Nat.mod_eq_of_lt hmask, Nat.and_two_pow_sub_one_eq_mod,
    Nat.mod_mod]

/-- Two lines of one width, UNPACK of `h` and PACK of its result, leave `PACK(UNPACK(h))` on `Y`. -/
theorem run_unpack_pack {s : State} {h : Bits16} {opU opP : OpCode} (hU : fnField opU = 1) (hP : fnField opP = 0)
    (hw : wideFormat opP = wideFormat opU) (hout : s.outcomes = [])
    (hp : s.pending = [{ op := opU, operand := .value (h.setWidth 64) }, { op := opP, operand := .result 1 }]) :
    ∃ t : State, Host.Core.run core 2 s = .next t ∧ t.pending = [] ∧ t.ill = 0 ∧ t.outcomes.length = 2 ∧
      t.y = zext64 (pack (wideFormat opU) (unpack (wideFormat opU) h.toNat)) := by
  have hF := wideFormat_isWide opU
  have hltU := toNat_lt_ten (op := opU) (by omega)
  have hltP := toNat_lt_ten (op := opP) (by omega)
  have hfirst := step_of_line hp hltU (resolve_value s.outcomes opU (h.setWidth 64))
  have hrest := afterLine_pending hp (h.setWidth 64)
  have houts := afterLine_outcomes (l := ⟨opU, .value (h.setWidth 64)⟩) hltU (h.setWidth 64) s
  rw [hout, List.nil_append] at houts
  have hlow : low 16 (h.setWidth 64) = h.toNat := by
    rw [low, BitVec.toNat_setWidth]
    omega
  have hy : outputs opU (h.setWidth 64) = { y := zext64 (unpack (wideFormat opU) h.toNat), ill := 0 } := by
    rw [outputs_of_unpack hU, hlow]
  generalize afterLine ⟨opU, .value (h.setWidth 64)⟩ (h.setWidth 64) s = u at *
  have hoperand : resolve u.outcomes ⟨opP, .result 1⟩ =
      some (usedLow opP (zext64 (unpack (wideFormat opU) h.toNat))) := by
    rw [houts, hy]
    rfl
  have hunpack := unpack_lt hF h.toNat
  have hwide : low (wideFormat opU).width (zext64 (unpack (wideFormat opU) h.toNat)) =
      unpack (wideFormat opU) h.toNat := by
    rw [low, zext64_toNat (hunpack.trans_le (Nat.pow_le_pow_right two_pos (width_le_sixtyFour hF))),
      Nat.mod_eq_of_lt hunpack]
  have hsecond := step_of_line hrest hltP hoperand
  refine ⟨_, (run_succ_of_next hfirst 1).trans ((run_succ_of_next hsecond 0).trans (run_zero _)),
    afterLine_pending hrest _, rfl, by simp [afterLine, houts], ?_⟩
  change (outputs opP (usedLow opP _)).y = _
  rw [outputs_usedLow, outputs_of_pack hP, hw, hwide]

/-- Settles O47: in each width the run leaves `PACK(UNPACK(h))`, which the round trip names. -/
theorem roundTripRun : Obligations.RoundTripRun := by
  intro s h wide hout hp
  obtain ⟨F, hF, hrun⟩ : ∃ F, IsWide F ∧
      ∃ t : State, Host.Core.run core 2 s = .next t ∧ t.pending = [] ∧ t.ill = 0 ∧ t.outcomes.length = 2 ∧
        t.y = zext64 (pack F (unpack F h.toNat)) := by
    cases wide
    · exact ⟨_, wideFormat_isWide _,
        run_unpack_pack (opU := encode .unpack32) (opP := encode .pack32) rfl rfl rfl hout hp⟩
    · exact ⟨_, wideFormat_isWide _,
        run_unpack_pack (opU := encode .unpack64) (opP := encode .pack64) rfl rfl rfl hout hp⟩
  obtain ⟨t, hnext, hpend, hill, hlen, hy⟩ := hrun
  refine ⟨t, hnext, hpend, hill, hlen, ?_⟩
  rw [hy, zext64_toNat ((pack_lt hF _).trans (by decide))]
  obtain ⟨hsame, hnan, -⟩ := roundTrip F h.toNat hF h.isLt
  split
  next hc => exact hnan hc
  next hc => exact hsame (.inl hc)

end Sys2Proof.Machine
end

section
/-! SUPPORT. The packer in numbers (42_packer.md R103, 44_properties.md R122): an operand and its result on one scale,
on which packing is rounding to the nearest integer, and the statements O38 and O51. -/

namespace Sys2Proof.Machine

open Sys2Proof.Rules

/-! ### Magnitudes against powers of two -/

theorem magnitude_nonneg (F : Format) (a : Nat) : 0 ≤ magnitude F a := by
  rw [magnitude]
  split <;> positivity

theorem sigField_div_lt_one (F : Format) (a : Nat) : (sigField F a : ℚ) / 2 ^ F.sigBits < 1 := by
  rw [div_lt_one (pow_pos two_pos _)]
  exact_mod_cast sigField_lt F a

theorem magnitude_eq_of_expField_ne_zero {F : Format} {a : Nat} (h : expField F a ≠ 0) :
    magnitude F a = (1 + (sigField F a : ℚ) / 2 ^ F.sigBits) * (2 : ℚ) ^ unbiasedExp F a := if_neg h

/-- For exponent field 0 the power is that of the least normal pattern, which no subnormal reaches. -/
theorem magnitude_lt_two_zpow (F : Format) (a : Nat) : magnitude F a < (2 : ℚ) ^ (unbiasedExp F a + 1) := by
  have hone := sigField_div_lt_one F a
  by_cases h : expField F a = 0
  · have hsplit : (2 : ℚ) ^ ((1 : ℤ) - F.bias - F.sigBits) = (2 : ℚ) ^ ((1 : ℤ) - F.bias) / 2 ^ F.sigBits := by
      rw [zpow_sub₀ two_ne_zero, zpow_natCast]
    rw [magnitude_of_expField_zero h, unbiasedExp_of_expField_zero h, neg_add_eq_sub, hsplit, mul_div_left_comm]
    exact mul_lt_of_lt_one_right (zpow_pos two_pos _) hone
  · rw [magnitude_eq_of_expField_ne_zero h, zpow_add_one₀ two_ne_zero, mul_comm]
    exact mul_lt_mul_of_pos_left (by linarith) (zpow_pos two_pos _)

theorem two_zpow_le_magnitude {F : Format} {a : Nat} (h : expField F a ≠ 0) :
    (2 : ℚ) ^ unbiasedExp F a ≤ magnitude F a := by
  rw [magnitude_eq_of_expField_ne_zero h]
  exact le_mul_of_one_le_left (zpow_pos two_pos _).le (le_add_of_nonneg_right (by positivity))

/-- The power of two is reached exactly with significand field 0. -/
theorem two_zpow_lt_magnitude_iff {F : Format} {a : Nat} (h : expField F a ≠ 0) :
    (2 : ℚ) ^ unbiasedExp F a < magnitude F a ↔ sigField F a ≠ 0 := by
  rw [magnitude_eq_of_expField_ne_zero h, lt_mul_iff_one_lt_left (zpow_pos two_pos _), lt_add_iff_pos_right,
    div_pos_iff_of_pos_right (pow_pos two_pos _), Nat.cast_pos, Nat.pos_iff_ne_zero]

theorem two_zpow_le_two_zpow {i j : Int} (h : i ≤ j) : (2 : ℚ) ^ i ≤ (2 : ℚ) ^ j := zpow_le_zpow_right₀ one_le_two h

theorem lt_of_two_zpow_lt {i j : Int} (h : (2 : ℚ) ^ i < (2 : ℚ) ^ j) : i < j :=
  (zpow_lt_zpow_iff_right₀ one_lt_two).mp h

theorem expField_ne_zero_of_unbiasedExp_ge {F : Format} (hF : IsWide F) {a : Nat} (h : -25 ≤ unbiasedExp F a) :
    expField F a ≠ 0 := by
  have hbias := bias_ge_of_isWide hF
  rw [unbiasedExp] at h
  omega

/-- Below the range only the band is above `2^-25`. -/
theorem two_zpow_lt_magnitude_iff_inBand {F : Format} (hF : IsWide F) {a : Nat} (h : unbiasedExp F a < -24) :
    (2 : ℚ) ^ (-25 : ℤ) < magnitude F a ↔ InBand F a := by
  rw [InBand]
  obtain he | he : unbiasedExp F a = -25 ∨ unbiasedExp F a + 1 ≤ -25 := by omega
  · rw [← he, two_zpow_lt_magnitude_iff (expField_ne_zero_of_unbiasedExp_ge hF he.ge)]
    exact (and_iff_right rfl).symm
  · have hle : magnitude F a ≤ (2 : ℚ) ^ (-25 : ℤ) := (magnitude_lt_two_zpow F a).le.trans (two_zpow_le_two_zpow he)
    exact iff_of_false hle.not_gt (by omega)

/-! ### One scale for operand and result -/

/-- The unit in the last place of the half result for the unbiased exponent `e`: `2^(e - 10)`, but `2^-24` from the
subnormal range down. -/
def ulp (e : Int) : ℚ := (2 : ℚ) ^ (((e + 14).toNat : ℤ) - 24)

/-- By how much the wide significand is shifted to count units of `ulp e`. -/
def packShift (F : Format) (e : Int) : Nat := F.sigBits - 10 + (-14 - e).toNat

/-- The operand's magnitude in units of the result's last place. -/
def packExact (F : Format) (a : Nat) : ℚ :=
  ((2 ^ F.sigBits + sigField F a : Nat) : ℚ) / 2 ^ packShift F (unbiasedExp F a)

/-- The result's magnitude in units of its last place. -/
def packRound (F : Format) (a : Nat) : Nat :=
  round10 (2 ^ F.sigBits + sigField F a) (packShift F (unbiasedExp F a))

theorem ulp_pos (e : Int) : 0 < ulp e := zpow_pos two_pos _

theorem one_le_packShift {F : Format} (hF : IsWide F) (e : Int) : 1 ≤ packShift F e := by
  have hM := eleven_le_sigBits hF
  rw [packShift]
  omega

theorem packShift_of_normal {e : Int} (F : Format) (h : -14 ≤ e) : packShift F e = F.sigBits - 10 := by
  rw [packShift]
  omega

theorem packShift_of_sub {F : Format} (hF : IsWide F) {e : Int} (h : e ≤ -15) :
    packShift F e = subshift e F.sigBits := by
  have hM := keptBits_le_sigBits hF
  have hsh := subshift_cast hM h
  rw [packShift]
  omega

/-- An even number of kept units passes through the rounding unit. -/
theorem round10_add_mul_two_pow (v q : Nat) {sh : Nat} (hsh : 1 ≤ sh) (hq : q % 2 = 0) :
    round10 (q * 2 ^ sh + v) sh = q + round10 v sh := by
  have hdiv : (q * 2 ^ sh + v) / 2 ^ sh = q + v / 2 ^ sh := by
    rw [Nat.mul_comm, Nat.mul_add_div (Nat.two_pow_pos _)]
  have hmod : (q * 2 ^ sh + v) % 2 ^ sh = v % 2 ^ sh := Nat.mul_add_mod' _ _ _
  have hsum := round10_cases (q * 2 ^ sh + v) hsh
  have hv := round10_cases v hsh
  rw [hdiv, hmod] at hsum
  omega

theorem two_pow_sigBits_eq {F : Format} (hF : IsWide F) : 2 ^ F.sigBits = 2 ^ 10 * 2 ^ (F.sigBits - 10) :=
  (pow_mul_pow_sub 2 (keptBits_le_sigBits hF)).symm

theorem magnitude_eq_packExact {F : Format} (hF : IsWide F) {a : Nat} (h : -25 ≤ unbiasedExp F a) :
    magnitude F a = packExact F a * ulp (unbiasedExp F a) := by
  have hM := keptBits_le_sigBits hF
  rw [magnitude_of_expField_ne_zero (expField_ne_zero_of_unbiasedExp_ge hF h), packExact, ulp]
  refine mul_two_zpow_eq_div_mul ?_
  rw [packShift]
  omega

theorem packRound_isNearestEven {F : Format} (hF : IsWide F) (a : Nat) :
    IsNearestEven (packRound F a) (packExact F a) :=
  round10_isNearestEven _ (one_le_packShift hF _)

section InRange

variable {F : Format} (hF : IsWide F) {a : Nat} (h₁ : -24 ≤ unbiasedExp F a) (h₂ : unbiasedExp F a ≤ 15)

include hF h₁

/-- Rounding keeps the result between the powers of two that bound the operand. -/
theorem packRound_bounds :
    2 ^ (10 - (-14 - unbiasedExp F a).toNat) ≤ packRound F a ∧
    packRound F a ≤ 2 ^ (11 - (-14 - unbiasedExp F a).toNat) := by
  have hM := keptBits_le_sigBits hF
  have hf := sigField_lt F a
  constructor
  · refine le_trans ?_ (roundKept_le_round10 _ _)
    rw [roundKept_eq_div, Nat.le_div_iff_mul_le (Nat.two_pow_pos _), ← pow_add, packShift,
      show 10 - (-14 - unbiasedExp F a).toNat + (F.sigBits - 10 + (-14 - unbiasedExp F a).toNat) = F.sigBits by omega]
    exact Nat.le_add_right _ _
  · refine round10_le_two_pow ?_
    rw [packShift, show F.sigBits - 10 + (-14 - unbiasedExp F a).toNat + (11 - (-14 - unbiasedExp F a).toNat) =
      F.sigBits + 1 by omega, pow_succ]
    omega

theorem packRound_le : packRound F a ≤ 2048 :=
  (packRound_bounds hF h₁).2.trans (Nat.pow_le_pow_right two_pos (Nat.sub_le _ _))

include h₂

/-- The fifteen bits of the result: the rounding result, on top of what a larger exponent adds. -/
theorem packLow_eq_packRound (n : Nat) :
    packLow n F (expField F a) (sigField F a) = (unbiasedExp F a + 14).toNat * 2 ^ 10 + packRound F a := by
  have hM := eleven_le_sigBits hF
  rw [packRound]
  obtain h | h := le_or_gt (-14) (unbiasedExp F a)
  · rw [packLow_of_normal hF h h₂, ← unbiasedExp, packShift_of_normal F h, two_pow_sigBits_eq hF,
      round10_add_mul_two_pow _ _ (by omega) (by decide)]
    omega
  · have hle : unbiasedExp F a ≤ -15 := by omega
    rw [packLow_of_sub hF h₁ hle, ← unbiasedExp, packShift_of_sub hF hle, Int.toNat_of_nonpos (by omega), Nat.zero_mul,
      Nat.zero_add]

end InRange

/-- A half pattern that is a significand `r` with its implicit bit, on top of `k` steps of the exponent, is `r` units
of `2^(k - 24)`; `r` may be 2048, the carry. -/
theorem magnitude_half_eq_mul {h k r : Nat}
    (hlow : expField Config.half h * 2 ^ 10 + sigField Config.half h = k * 2 ^ 10 + r) (hr : r ≤ 2048)
    (hk : k = 0 ∨ 1024 ≤ r) : magnitude Config.half h = r * (2 : ℚ) ^ ((k : ℤ) - 24) := by
  have hf : sigField Config.half h < 2 ^ 10 := sigField_lt Config.half h
  by_cases he : expField Config.half h = 0
  · obtain ⟨rfl, rfl⟩ : k = 0 ∧ r = sigField Config.half h := by omega
    rw [magnitude_of_expField_zero he]
    rfl
  · rw [magnitude_of_expField_ne_zero he, unbiasedExp, half_bias, half_sigBits]
    obtain ⟨hexp, hsig⟩ | ⟨hexp, hsig, rfl⟩ :
        (expField Config.half h = k + 1 ∧ 2 ^ 10 + sigField Config.half h = r) ∨
        (expField Config.half h = k + 2 ∧ sigField Config.half h = 0 ∧ r = 2 ^ 10 * 2 ^ 1) := by omega
    · rw [hsig, hexp]
      congr 2
      push_cast
      ring
    · rw [hsig, hexp, Nat.add_zero]
      refine (cast_mul_two_pow_mul_two_zpow (2 ^ 10) 1 ?_).symm
      push_cast
      ring

theorem magnitude_pack {F : Format} (hF : IsWide F) {a : Nat} (h₁ : -24 ≤ unbiasedExp F a)
    (h₂ : unbiasedExp F a ≤ 15) :
    magnitude Config.half (pack F a) = packRound F a * ulp (unbiasedExp F a) := by
  obtain ⟨-, hexp, hsig⟩ := fields_pack hF a
  obtain ⟨hlow, -⟩ := packRound_bounds hF h₁
  refine magnitude_half_eq_mul ?_ (packRound_le hF h₁) ?_
  · rw [hexp, hsig, ← packLow_eq_packRound hF h₁ h₂ Config.nan16Sig, Nat.div_add_mod']
  · obtain h | h := le_or_gt (unbiasedExp F a) (-14)
    · exact .inl (by omega)
    · rw [show 10 - (-14 - unbiasedExp F a).toNat = 10 by omega] at hlow
      exact .inr hlow

theorem magnitude_half_of_zero {h : Nat} (hc : classify Config.half h = .zero) : magnitude Config.half h = 0 := by
  obtain ⟨he, hf⟩ := classify_eq_zero_iff.mp hc
  rw [magnitude_of_expField_zero he, hf, Nat.cast_zero, zero_mul]

theorem classify_pack_of_tiny {F : Format} {a : Nat} (h : unbiasedExp F a < -24) :
    classify Config.half (pack F a) = .zero := by
  rw [pack_of_tiny h]
  exact classify_packSign (signField_le_one F a)

theorem classify_pack_of_over {F : Format} (hF : IsWide F) {a : Nat} (h : 15 < unbiasedExp F a)
    (hn : classify F a ≠ .nan) : classify Config.half (pack F a) = .infinity := by
  rw [pack_eq_packLow, classify_packSign_or_eq_infinity_iff (signField_le_one F a) (packLow_nan16Sig_lt hF a)]
  exact packLow_of_over h ((not_isNan_iff hF).mp hn)

/-! ### Accuracy (R122) -/

theorem abs_signFactor (s : Nat) : |signFactor s| = 1 := by
  rw [signFactor]
  split <;> simp

theorem abs_signFactor_mul_sub (s : Nat) (x y : ℚ) : |signFactor s * y - signFactor s * x| = |y - x| := by
  rw [← mul_sub, abs_mul, abs_signFactor, one_mul]

theorem abs_finiteValue (F : Format) (a : Nat) : |finiteValue F a| = magnitude F a := by
  rw [finiteValue, abs_mul, abs_signFactor, one_mul, abs_of_nonneg (magnitude_nonneg F a)]

theorem finiteValue_pack {F : Format} (hF : IsWide F) (a : Nat) :
    finiteValue Config.half (pack F a) = signFactor (signField F a) * magnitude Config.half (pack F a) := by
  rw [finiteValue, signField_pack hF]

theorem abs_finiteValue_pack_sub {F : Format} (hF : IsWide F) (a : Nat) :
    |finiteValue Config.half (pack F a) - finiteValue F a| = |magnitude Config.half (pack F a) - magnitude F a| := by
  rw [finiteValue_pack hF, finiteValue, abs_signFactor_mul_sub]

theorem abs_mul_ulp_sub (x y : ℚ) (e : Int) : |y * ulp e - x * ulp e| = |y - x| * ulp e := by
  rw [← sub_mul, abs_mul, abs_of_pos (ulp_pos e)]

theorem half_mul_ulp (e : Int) : 1 / 2 * ulp e = (2 : ℚ) ^ (max e (-14) - 11) := by
  rw [ulp, one_div, ← zpow_neg_one, ← zpow_add₀ two_ne_zero]
  congr 1
  omega

/-- At a tie the guard bit alone is set below the kept bits. -/
theorem roundGuard_roundSticky_of_tie {v sh : Nat} (hsh : 1 ≤ sh) (h : 2 * (v % 2 ^ sh) = 2 ^ sh) :
    roundGuard v sh = 1 ∧ roundSticky v sh = 0 := by
  obtain ⟨k, rfl⟩ := Nat.exists_eq_add_of_le' hsh
  have hlt : v % 2 ^ k < 2 ^ k := Nat.mod_lt _ (Nat.two_pow_pos k)
  rw [mod_two_pow_succ_eq_guard, pow_succ] at h
  rw [roundSticky_eq, Nat.add_sub_cancel]
  obtain hg | hg := roundGuard_eq_zero_or_one v (k + 1) <;> rw [hg] at h
  · omega
  · exact ⟨hg, if_neg (by omega)⟩

/-- In the range the error is half a unit at most, and half a unit only at a tie. -/
theorem pack_error {F : Format} (hF : IsWide F) {a : Nat} (h₁ : -24 ≤ unbiasedExp F a) (h₂ : unbiasedExp F a ≤ 15) :
    |finiteValue Config.half (pack F a) - finiteValue F a| < (2 : ℚ) ^ (max (unbiasedExp F a) (-14) - 11) ∨
    (|finiteValue Config.half (pack F a) - finiteValue F a| = (2 : ℚ) ^ (max (unbiasedExp F a) (-14) - 11) ∧
      2 * ((2 ^ F.sigBits + sigField F a) % 2 ^ packShift F (unbiasedExp F a)) =
        2 ^ packShift F (unbiasedExp F a)) := by
  rw [abs_finiteValue_pack_sub hF, magnitude_pack hF h₁ h₂, magnitude_eq_packExact hF (by omega), abs_mul_ulp_sub,
    ← half_mul_ulp]
  obtain hlt | ⟨heq, htie, -⟩ := round10_dist (2 ^ F.sigBits + sigField F a) (one_le_packShift hF (unbiasedExp F a))
  · exact .inl (mul_lt_mul_of_pos_right hlt (ulp_pos _))
  · exact .inr ⟨congrArg (· * ulp _) heq, htie⟩

/-- Settles O51: above, in and below the range. -/
theorem packAccuracy : Obligations.PackAccuracy := by
  intro F a hF _ hc
  have hn : classify F a ≠ .nan := by simp [hc]
  refine ⟨fun h₁ h₂ _ => ?inRange, fun h => classify_pack_of_over hF h hn, fun h => ?below⟩
  case inRange =>
    have hM := eleven_le_sigBits hF
    obtain hlt | ⟨heq, htie⟩ := pack_error hF h₁ h₂
    · exact ⟨hlt.le, fun h => absurd h hlt.ne⟩
    · refine ⟨heq.le, fun _ => ⟨fun h => ?_, fun h => ?_⟩⟩
      · rw [packShift_of_normal F h, two_pow_sigBits_eq hF, Nat.mul_add_mod'] at htie
        exact roundGuard_roundSticky_of_tie (by omega) htie
      · have hsub := packShift_of_sub hF (e := unbiasedExp F a) (by omega)
        rw [← hsub]
        exact roundGuard_roundSticky_of_tie (one_le_packShift hF _) htie
  case below =>
    have hzero := classify_pack_of_tiny h
    rw [abs_finiteValue_pack_sub hF, abs_finiteValue, magnitude_half_of_zero hzero, zero_sub, abs_neg,
      abs_of_nonneg (magnitude_nonneg F a)]
    exact ⟨hzero, (magnitude_lt_two_zpow F a).trans_le (two_zpow_le_two_zpow (by omega)), rfl,
      two_zpow_lt_magnitude_iff_inBand hF h⟩

/-! ### Nearest among the half values (R103) -/

/-- No integer is nearer than the nearest, and another one as near means a tie. -/
theorem IsNearestEven.abs_sub_le {m n : ℤ} {x : ℚ} (hm : IsNearestEven m x) :
    |(m : ℚ) - x| ≤ |(n : ℚ) - x| ∧ (|(m : ℚ) - x| = |(n : ℚ) - x| → n ≠ m → m % 2 = 0) := by
  obtain ⟨hhalf, heven⟩ := hm
  by_cases hne : n = m
  · rw [hne]
    exact ⟨le_rfl, fun _ h => absurd rfl h⟩
  · have hone : ((1 : ℤ) : ℚ) ≤ (|m - n| : ℤ) := Int.cast_le.mpr (Int.one_le_abs (sub_ne_zero.mpr (Ne.symm hne)))
    have hdist := abs_intCast_sub_le m n x
    rw [Int.cast_one] at hone
    exact ⟨by linarith, fun heq _ => heven (le_antisymm hhalf (by linarith))⟩

/-- Nor is a value that is finer than the integers, when it is below an integer that is not above `x`. -/
theorem IsNearestEven.abs_sub_le_of_int_or_below {m i : ℤ} {x w : ℚ} (hm : IsNearestEven m x)
    (hw : (∃ n : ℤ, w = n) ∨ (w < i ∧ (i : ℚ) ≤ x)) :
    |(m : ℚ) - x| ≤ |w - x| ∧ (|(m : ℚ) - x| = |w - x| → w ≠ m → m % 2 = 0) := by
  obtain ⟨n, rfl⟩ | ⟨hwi, hix⟩ := hw
  · obtain ⟨hle, heven⟩ := hm.abs_sub_le (n := n)
    exact ⟨hle, fun heq hne => heven heq fun h => hne (congrArg _ h)⟩
  · obtain ⟨hle, -⟩ := hm.abs_sub_le (n := i)
    rw [abs_of_nonpos (sub_nonpos.mpr hix)] at hle
    rw [abs_of_neg (by linarith : w - x < 0)]
    exact ⟨by linarith, fun heq => by linarith⟩

/-- A half value, counted in units of `ulp e`, is an integer, or it is below the normal values of that unit. -/
theorem exists_magnitude_half_eq (g : Nat) (e : Int) :
    ∃ w : ℚ, magnitude Config.half g = w * ulp e ∧ ((∃ n : ℤ, w = n) ∨ (w < 1024 ∧ -14 ≤ e)) := by
  obtain ⟨m, j, hm, hmag⟩ : ∃ m j : Nat, m < 2048 ∧ magnitude Config.half g = m * (2 : ℚ) ^ ((j : ℤ) - 24) := by
    have hf : sigField Config.half g < 2 ^ 10 := sigField_lt Config.half g
    by_cases he : expField Config.half g = 0
    · exact ⟨sigField Config.half g, 0, by omega, magnitude_half_eq_mul (by omega) (by omega) (.inl rfl)⟩
    · exact ⟨2 ^ 10 + sigField Config.half g, expField Config.half g - 1, by omega,
        magnitude_half_eq_mul (by omega) (by omega) (.inr (by omega))⟩
  rw [hmag, ulp]
  obtain hle | hlt := le_or_gt (e + 14).toNat j
  · refine ⟨((m * 2 ^ (j - (e + 14).toNat) : Nat) : ℚ), (cast_mul_two_pow_mul_two_zpow _ _ ?_).symm,
      .inl ⟨((m * 2 ^ (j - (e + 14).toNat) : Nat) : ℤ), (Int.cast_natCast _).symm⟩⟩
    omega
  · refine ⟨(m : ℚ) / 2 ^ ((e + 14).toNat - j), mul_two_zpow_eq_div_mul (by omega), .inr ⟨?_, by omega⟩⟩
    rw [div_lt_iff₀ (pow_pos two_pos _)]
    have hpow : 2 ^ 1 ≤ 2 ^ ((e + 14).toNat - j) := Nat.pow_le_pow_right two_pos (by omega)
    have hcount : m < 1024 * 2 ^ ((e + 14).toNat - j) := by omega
    exact_mod_cast hcount

theorem le_packExact {F : Format} (hF : IsWide F) {a : Nat} (h : -14 ≤ unbiasedExp F a) : 1024 ≤ packExact F a := by
  rw [packExact, packShift_of_normal F h, le_div_iff₀ (pow_pos two_pos _), two_pow_sigBits_eq hF]
  push_cast
  have hf : (0 : ℚ) ≤ sigField F a := Nat.cast_nonneg _
  linarith

theorem sigField_pack_mod_two {F : Format} (hF : IsWide F) {a : Nat} (h₁ : -24 ≤ unbiasedExp F a)
    (h₂ : unbiasedExp F a ≤ 15) : sigField Config.half (pack F a) % 2 = packRound F a % 2 := by
  obtain ⟨-, -, hsig⟩ := fields_pack hF a
  rw [hsig, packLow_eq_packRound hF h₁ h₂]
  omega

/-- What R103 says of a result, for magnitudes: no half value is nearer, and the result is even if another is as
near. -/
def IsNearestMagnitude (F : Format) (a : Nat) (z : ℚ) : Prop :=
  |magnitude Config.half (pack F a) - magnitude F a| ≤ |z - magnitude F a| ∧
  (|magnitude Config.half (pack F a) - magnitude F a| = |z - magnitude F a| →
    z ≠ magnitude Config.half (pack F a) → sigField Config.half (pack F a) % 2 = 0)

theorem isNearestMagnitude_of_inRange {F : Format} (hF : IsWide F) {a : Nat} (h₁ : -24 ≤ unbiasedExp F a)
    (h₂ : unbiasedExp F a ≤ 15) (g : Nat) : IsNearestMagnitude F a (magnitude Config.half g) := by
  obtain ⟨w, hw, hcases⟩ := exists_magnitude_half_eq g (unbiasedExp F a)
  have hplace : (∃ n : ℤ, w = n) ∨ (w < (1024 : ℤ) ∧ ((1024 : ℤ) : ℚ) ≤ packExact F a) :=
    hcases.imp_right fun ⟨hlt, hge⟩ => ⟨by exact_mod_cast hlt, by exact_mod_cast le_packExact hF hge⟩
  obtain ⟨hle, heven⟩ := (packRound_isNearestEven hF a).abs_sub_le_of_int_or_below hplace
  rw [IsNearestMagnitude, hw, magnitude_pack hF h₁ h₂, magnitude_eq_packExact hF (by omega), abs_mul_ulp_sub,
    abs_mul_ulp_sub, sigField_pack_mod_two hF h₁ h₂]
  refine ⟨mul_le_mul_of_nonneg_right hle (ulp_pos _).le, fun heq hne => ?_⟩
  have hpar := heven (mul_right_cancel₀ (ulp_pos _).ne' heq) fun h => hne (congrArg (· * ulp _) h)
  omega

theorem two_zpow_neg_24 : (2 : ℚ) ^ (-24 : ℤ) = 2 * (2 : ℚ) ^ (-25 : ℤ) := by
  rw [← zpow_one_add₀ two_ne_zero]
  rfl

/-- Below the range, but for the band, zero is nearest: the least half value is at least twice the operand. -/
theorem isNearestMagnitude_of_tiny {F : Format} (hF : IsWide F) {a : Nat} (h : unbiasedExp F a < -24)
    (hband : ¬InBand F a) (g : Nat) : IsNearestMagnitude F a (magnitude Config.half g) := by
  have hzero := classify_pack_of_tiny h
  have hx : magnitude F a ≤ (2 : ℚ) ^ (-25 : ℤ) := not_lt.mp fun hlt =>
    hband ((two_zpow_lt_magnitude_iff_inBand hF h).mp hlt)
  have hnonneg := magnitude_nonneg F a
  have hz : magnitude Config.half g = 0 ∨ 2 * (2 : ℚ) ^ (-25 : ℤ) ≤ magnitude Config.half g := by
    obtain ⟨w, hw, ⟨n, rfl⟩ | ⟨-, habs⟩⟩ := exists_magnitude_half_eq g (-24)
    · have hge := magnitude_nonneg Config.half g
      have hunit : ulp (-24) = 2 * (2 : ℚ) ^ (-25 : ℤ) := two_zpow_neg_24
      rw [hw] at hge ⊢
      obtain hn | hn := le_or_gt n 0
      · have hn0 : (n : ℚ) ≤ 0 := by exact_mod_cast hn
        exact .inl (le_antisymm (mul_nonpos_of_nonpos_of_nonneg hn0 (ulp_pos _).le) hge)
      · have hn1 : (1 : ℚ) ≤ n := by exact_mod_cast hn
        exact .inr (hunit ▸ le_mul_of_one_le_left (ulp_pos _).le hn1)
    · exact absurd habs (by decide)
  rw [IsNearestMagnitude, magnitude_half_of_zero hzero, (classify_eq_zero_iff.mp hzero).2]
  refine ⟨?_, fun _ _ => rfl⟩
  rw [zero_sub, abs_neg, abs_of_nonneg hnonneg]
  obtain hz | hz := hz
  · rw [hz, zero_sub, abs_neg, abs_of_nonneg hnonneg]
  · exact le_trans (by linarith) (le_abs_self _)

theorem signFactor_eq_or_neg (s t : Nat) : signFactor t = signFactor s ∨ signFactor t = -signFactor s := by
  unfold signFactor
  split <;> split <;> simp

/-- A value of the other sign is no nearer than the one of the same sign. -/
theorem abs_signed_sub_le {s t : Nat} {x y z : ℚ} {P : Prop} (hx : 0 ≤ x) (hy : 0 ≤ y) (hz : 0 ≤ z)
    (h0 : x = 0 → y = 0) (h : |y - x| ≤ |z - x| ∧ (|y - x| = |z - x| → z ≠ y → P)) :
    |signFactor s * y - signFactor s * x| ≤ |signFactor t * z - signFactor s * x| ∧
    (|signFactor s * y - signFactor s * x| = |signFactor t * z - signFactor s * x| →
      signFactor t * z ≠ signFactor s * y → P) := by
  obtain ⟨hle, heven⟩ := h
  rw [abs_signFactor_mul_sub]
  obtain hst | hst := signFactor_eq_or_neg s t <;> rw [hst]
  · rw [abs_signFactor_mul_sub]
    exact ⟨hle, fun heq hne => heven heq fun hzy => hne (by rw [hzy])⟩
  · have hother : |-signFactor s * z - signFactor s * x| = z + x := by
      rw [neg_mul, ← mul_neg, abs_signFactor_mul_sub, abs_sub_comm, sub_neg_eq_add, add_comm,
        abs_of_nonneg (add_nonneg hz hx)]
    have hfar : |z - x| ≤ z + x := abs_le.mpr ⟨by linarith, by linarith⟩
    rw [hother]
    refine ⟨hle.trans hfar, fun heq hne => ?_⟩
    by_cases hzy : z = y
    · subst hzy
      obtain hz0 | hx0 : z = 0 ∨ x = 0 := by
        rcases abs_cases (z - x) with ⟨h, -⟩ | ⟨h, -⟩
        · exact .inr (by linarith)
        · exact .inl (by linarith)
      · exact absurd (by rw [hz0, mul_zero, mul_zero]) hne
      · exact absurd (by rw [h0 hx0, mul_zero, mul_zero]) hne
    · exact heven (le_antisymm hle (heq ▸ hfar)) hzy

theorem unbiasedExp_le_of_magnitude_lt {F : Format} {a : Nat} {n : Int} (he : expField F a ≠ 0)
    (h : magnitude F a < (2 : ℚ) ^ n) : unbiasedExp F a < n :=
  lt_of_two_zpow_lt ((two_zpow_le_magnitude he).trans_lt h)

/-- An operand of magnitude 0 packs to magnitude 0. -/
theorem magnitude_pack_eq_zero {F : Format} (hF : IsWide F) {a : Nat} (h : magnitude F a = 0) :
    magnitude Config.half (pack F a) = 0 := by
  have he : expField F a = 0 := by
    by_contra hne
    exact absurd h ((zpow_pos two_pos _).trans_le (two_zpow_le_magnitude hne)).ne'
  exact magnitude_half_of_zero (classify_pack_of_expField_zero hF he)

theorem isNearestMagnitude {F : Format} (hF : IsWide F) {a : Nat} (hband : ¬InBand F a)
    (h : magnitude F a < 2 ^ 16) (g : Nat) : IsNearestMagnitude F a (magnitude Config.half g) := by
  obtain htiny | hge := lt_or_ge (unbiasedExp F a) (-24)
  · exact isNearestMagnitude_of_tiny hF htiny hband g
  · have hlt := unbiasedExp_le_of_magnitude_lt (n := 16) (expField_ne_zero_of_unbiasedExp_ge hF (a := a) (by omega))
      (by exact_mod_cast h)
    exact isNearestMagnitude_of_inRange hF hge (by omega) g

theorem classify_pack_of_magnitude_ge {F : Format} (hF : IsWide F) {a : Nat} (hn : classify F a ≠ .nan)
    (h : 2 ^ 16 ≤ magnitude F a) : classify Config.half (pack F a) = .infinity := by
  have hlt : (2 : ℚ) ^ (16 : ℤ) < (2 : ℚ) ^ (unbiasedExp F a + 1) :=
    lt_of_le_of_lt (by exact_mod_cast h) (magnitude_lt_two_zpow F a)
  have he := lt_of_two_zpow_lt hlt
  exact classify_pack_of_over hF (by omega) hn

/-- A sign over the significand field 1 is the least subnormal. -/
theorem magnitude_packSign_or_one {s : Nat} (hs : s ≤ 1) :
    magnitude Config.half (packSign s ||| 1) = (2 : ℚ) ^ (-24 : ℤ) := by
  obtain ⟨-, he, hf⟩ := fields_packSign_or hs (x := 1) (by decide)
  have hmag := magnitude_half_eq_mul (h := packSign s ||| 1) (k := 0) (r := 1) (by omega) (by omega) (.inl rfl)
  simpa using hmag

/-- The band: the zero the packer gives is not the nearest value, the least subnormal of the sign is nearer. -/
theorem pack_inBand {F : Format} (hF : IsWide F) {a : Nat} (h : InBand F a) :
    pack F a = packSign (signField F a) ∧ (2 : ℚ) ^ (-25 : ℤ) < magnitude F a ∧
    magnitude F a < (2 : ℚ) ^ (-24 : ℤ) ∧
    |roundingTarget (packSign (signField F a) ||| 1) - finiteValue F a| <
      |roundingTarget (pack F a) - finiteValue F a| := by
  have htiny : unbiasedExp F a < -24 := h.1 ▸ by decide
  have hlow := (two_zpow_lt_magnitude_iff_inBand hF htiny).mpr h
  have hup : magnitude F a < (2 : ℚ) ^ (-24 : ℤ) := by
    have hlt := magnitude_lt_two_zpow F a
    rwa [h.1] at hlt
  have hdouble := two_zpow_neg_24
  refine ⟨pack_of_tiny htiny, hlow, hup, ?_⟩
  obtain ⟨hsign, -, -⟩ := fields_packSign_or (signField_le_one F a) (x := 1) (by decide)
  rw [roundingTarget, roundingTarget, abs_finiteValue_pack_sub hF, magnitude_half_of_zero (classify_pack_of_tiny htiny),
    finiteValue, finiteValue, hsign, abs_signFactor_mul_sub, magnitude_packSign_or_one (signField_le_one F a), zero_sub,
    abs_neg, abs_of_pos (sub_pos.mpr hup), abs_of_nonneg (magnitude_nonneg F a)]
  linarith

theorem inBand_single_iff {a : Nat} (ha : a < 2 ^ 32) : InBand Config.single a ↔
    (0x33000001 ≤ a ∧ a ≤ 0x337FFFFF) ∨ (0xB3000001 ≤ a ∧ a ≤ 0xB37FFFFF) := by
  rw [InBand, unbiasedExp, expField_eq_div_mod, sigField_eq_mod, single_bias, single_sigBits, single_expBits]
  omega

theorem inBand_double_iff {a : Nat} (ha : a < 2 ^ 64) : InBand Config.double a ↔
    (0x3E60000000000001 ≤ a ∧ a ≤ 0x3E6FFFFFFFFFFFFF) ∨ (0xBE60000000000001 ≤ a ∧ a ≤ 0xBE6FFFFFFFFFFFFF) := by
  rw [InBand, unbiasedExp, expField_eq_div_mod, sigField_eq_mod, double_bias, double_sigBits, double_expBits]
  omega

/-- Settles O38: nearest among the magnitudes, so among the signed values, outside the band; the band is apart. -/
theorem packIsNearestOutsideTheBand : Obligations.PackIsNearestOutsideTheBand := by
  refine ⟨fun F a hF _ hn hband => ?outside, fun F a hF _ h => pack_inBand hF h, fun a ha => inBand_single_iff ha,
    fun a ha => inBand_double_iff ha⟩
  refine ⟨signField_pack hF a, classify_pack_of_infinity hF, fun _ h => classify_pack_of_magnitude_ge hF hn h,
    fun _ h g _ _ => ?_⟩
  rw [roundingTarget, roundingTarget, finiteValue_pack hF, finiteValue, finiteValue]
  exact abs_signed_sub_le (magnitude_nonneg F a) (magnitude_nonneg _ _) (magnitude_nonneg _ _)
    (magnitude_pack_eq_zero hF) (isNearestMagnitude hF hband h g)

end Sys2Proof.Machine
end

section
/-! SUPPORT. The order of patterns (44_properties.md R123, R124): the value of a pattern is ordered as its sign and its
lower bits are, packing keeps that order and depends on the value alone, and the statements O52 and O53. -/

namespace Sys2Proof.Machine

open Sys2Proof.Rules

/-! ### Magnitudes are ordered as the bits below the sign -/

/-- The bits below the sign bit, as a number. -/
def lowBits (F : Format) (a : Nat) : Nat := expField F a * 2 ^ F.sigBits + sigField F a

theorem lowBits_div (F : Format) (a : Nat) : lowBits F a / 2 ^ F.sigBits = expField F a := by
  rw [lowBits, Nat.mul_comm, Nat.mul_add_div (Nat.two_pow_pos _), Nat.div_eq_of_lt (sigField_lt F a), Nat.add_zero]

theorem lowBits_mod (F : Format) (a : Nat) : lowBits F a % 2 ^ F.sigBits = sigField F a := by
  rw [lowBits, Nat.mul_add_mod', Nat.mod_eq_of_lt (sigField_lt F a)]

theorem expField_le_of_lowBits_le {F : Format} {a b : Nat} (h : lowBits F a ≤ lowBits F b) :
    expField F a ≤ expField F b := by
  rw [← lowBits_div, ← lowBits_div]
  exact Nat.div_le_div_right h

/-- The exponent field decides, and among equal ones the significand field. -/
theorem lowBits_lt_cases {F : Format} {a b : Nat} (h : lowBits F a < lowBits F b) :
    expField F a < expField F b ∨ (expField F a = expField F b ∧ sigField F a < sigField F b) := by
  obtain hlt | heq := (expField_le_of_lowBits_le h.le).lt_or_eq
  · exact .inl hlt
  · rw [lowBits, lowBits, heq] at h
    exact .inr ⟨heq, Nat.lt_of_add_lt_add_left h⟩

theorem magnitude_congr {F : Format} {a b : Nat} (he : expField F a = expField F b)
    (hf : sigField F a = sigField F b) : magnitude F a = magnitude F b := by
  rw [magnitude, magnitude, he, hf]

theorem magnitude_lt_of_lowBits_lt {F : Format} {a b : Nat} (h : lowBits F a < lowBits F b) :
    magnitude F a < magnitude F b := by
  obtain hexp | ⟨hexp, hsig⟩ := lowBits_lt_cases h
  · calc magnitude F a < (2 : ℚ) ^ (unbiasedExp F a + 1) := magnitude_lt_two_zpow F a
      _ ≤ (2 : ℚ) ^ unbiasedExp F b := two_zpow_le_two_zpow (by rw [unbiasedExp, unbiasedExp]; omega)
      _ ≤ magnitude F b := two_zpow_le_magnitude (by omega)
  · have hsig' : (sigField F a : ℚ) < sigField F b := by exact_mod_cast hsig
    rw [magnitude, magnitude, hexp]
    split
    · exact mul_lt_mul_of_pos_right hsig' (zpow_pos two_pos _)
    · exact mul_lt_mul_of_pos_right (add_lt_add_right (div_lt_div_of_pos_right hsig' (pow_pos two_pos _)) 1)
        (zpow_pos two_pos _)

theorem magnitude_lt_iff {F : Format} {a b : Nat} : magnitude F a < magnitude F b ↔ lowBits F a < lowBits F b := by
  refine ⟨fun h => ?_, magnitude_lt_of_lowBits_lt⟩
  by_contra hge
  obtain hlt | heq := (not_lt.mp hge).lt_or_eq
  · exact absurd (magnitude_lt_of_lowBits_lt hlt) h.not_gt
  · exact absurd (magnitude_congr (by rw [← lowBits_div, heq, lowBits_div]) (by rw [← lowBits_mod, heq, lowBits_mod]))
      h.ne'

theorem magnitude_le_iff {F : Format} {a b : Nat} : magnitude F a ≤ magnitude F b ↔ lowBits F a ≤ lowBits F b := by
  rw [← not_lt, magnitude_lt_iff, not_lt]

/-! ### The order of values (R123) -/

/-- The place of a pattern that is no NaN in the order of R123: up with the lower bits for sign 0, down for sign 1,
with `-0` just below `+0`. -/
def orderKey (F : Format) (a : Nat) : Int := if signField F a = 0 then lowBits F a else -lowBits F a - 1

theorem orderKey_of_positive {F : Format} {a : Nat} (h : signField F a = 0) : orderKey F a = lowBits F a := if_pos h

theorem orderKey_of_negative {F : Format} {a : Nat} (h : signField F a = 1) : orderKey F a = -lowBits F a - 1 :=
  if_neg (by omega)

theorem signField_cases (F : Format) (a : Nat) : signField F a = 0 ∨ signField F a = 1 :=
  Nat.le_one_iff_eq_zero_or_eq_one.mp (signField_le_one F a)

theorem orderKey_injective {F : Format} {a b : Nat} (ha : a < 2 ^ F.width) (hb : b < 2 ^ F.width)
    (h : orderKey F a = orderKey F b) : a = b := by
  obtain ⟨hs, hlow⟩ : signField F a = signField F b ∧ lowBits F a = lowBits F b := by
    have hsa := signField_le_one F a
    have hsb := signField_le_one F b
    unfold orderKey at h
    split at h <;> split at h <;> omega
  refine eq_of_fields ha hb hs ?_ ?_
  · rw [← lowBits_div, hlow, lowBits_div]
  · rw [← lowBits_mod, hlow, lowBits_mod]

theorem lowBits_of_infinity {F : Format} {a : Nat} (h : classify F a = .infinity) :
    lowBits F a = F.expFieldMax * 2 ^ F.sigBits := by
  obtain ⟨-, he, hf⟩ := classify_eq_infinity_iff.mp h
  rw [lowBits, he, hf, Nat.add_zero]

theorem lowBits_lt_of_finite {F : Format} (hmax : F.expFieldMax ≠ 0) {a : Nat} (hi : classify F a ≠ .infinity)
    (hn : classify F a ≠ .nan) : lowBits F a < F.expFieldMax * 2 ^ F.sigBits := by
  have hlt : expField F a < F.expFieldMax := by
    have hle : expField F a ≤ F.expFieldMax := Nat.le_sub_one_of_lt (expField_lt F a)
    refine hle.lt_of_ne fun heq => ?_
    by_cases hf : sigField F a = 0
    · exact hi (classify_eq_infinity_iff.mpr ⟨by omega, heq, hf⟩)
    · exact hn (classify_eq_nan_iff.mpr ⟨by omega, heq, hf⟩)
  calc lowBits F a < expField F a * 2 ^ F.sigBits + 2 ^ F.sigBits := Nat.add_lt_add_left (sigField_lt F a) _
    _ = (expField F a + 1) * 2 ^ F.sigBits := (Nat.succ_mul _ _).symm
    _ ≤ F.expFieldMax * 2 ^ F.sigBits := Nat.mul_le_mul_right _ hlt

section NotAbove

variable {F : Format} {a b : Nat}

/-- Two numbers, sign by sign. -/
theorem notAbove_number_iff :
    Value.notAbove (.number (signField F a) (finiteValue F a)) (.number (signField F b) (finiteValue F b)) ↔
      orderKey F a ≤ orderKey F b := by
  have hma := magnitude_nonneg F a
  have hmb := magnitude_nonneg F b
  have hpos : signFactor 0 = 1 := if_pos rfl
  have hneg : signFactor 1 = -1 := if_neg one_ne_zero
  rw [Value.notAbove, finiteValue, finiteValue]
  obtain hsa | hsa := signField_cases F a <;> obtain hsb | hsb := signField_cases F b <;> rw [hsa, hsb]
  · rw [orderKey_of_positive hsa, orderKey_of_positive hsb, hpos, one_mul, one_mul, Int.ofNat_le, ← magnitude_le_iff,
      and_iff_left le_rfl, le_iff_lt_or_eq]
  · rw [orderKey_of_positive hsa, orderKey_of_negative hsb, hpos, hneg, one_mul, neg_one_mul]
    refine iff_of_false ?_ (by omega)
    rintro (hlt | ⟨-, hle⟩)
    · linarith
    · omega
  · rw [orderKey_of_negative hsa, orderKey_of_positive hsb, hpos, hneg, one_mul, neg_one_mul]
    refine iff_of_true ?_ (by omega)
    obtain hlt | heq := (neg_le_of_neg_le (by linarith) : -magnitude F a ≤ magnitude F b).lt_or_eq
    · exact .inl hlt
    · exact .inr ⟨heq, Nat.zero_le _⟩
  · have hkey : -(lowBits F a : Int) - 1 ≤ -(lowBits F b : Int) - 1 ↔ lowBits F b ≤ lowBits F a := by omega
    rw [orderKey_of_negative hsa, orderKey_of_negative hsb, hneg, neg_one_mul, neg_one_mul, hkey, ← magnitude_le_iff,
      neg_lt_neg_iff, neg_inj, and_iff_left le_rfl, le_iff_lt_or_eq, eq_comm]

/-- The order of the values is the order of the keys; an infinity is beyond every finite pattern of its sign. -/
theorem notAbove_val_iff (hmax : F.expFieldMax ≠ 0) (ha : classify F a ≠ .nan) (hb : classify F b ≠ .nan) :
    (val F a).notAbove (val F b) ↔ orderKey F a ≤ orderKey F b := by
  have hsa := signField_le_one F a
  have hsb := signField_le_one F b
  by_cases hia : classify F a = .infinity <;> by_cases hib : classify F b = .infinity
  · have hla := lowBits_of_infinity hia
    have hlb := lowBits_of_infinity hib
    rw [val_of_infinity hia, val_of_infinity hib, Value.notAbove, orderKey, orderKey]
    split <;> split <;> omega
  · have hla := lowBits_of_infinity hia
    have hlb := lowBits_lt_of_finite hmax hib hb
    rw [val_of_infinity hia, val_of_finite hib hb, Value.notAbove, orderKey, orderKey]
    split <;> split <;> omega
  · have hla := lowBits_lt_of_finite hmax hia ha
    have hlb := lowBits_of_infinity hib
    rw [val_of_finite hia ha, val_of_infinity hib, Value.notAbove, orderKey, orderKey]
    split <;> split <;> omega
  · rw [val_of_finite hia ha, val_of_finite hib hb]
    exact notAbove_number_iff

end NotAbove

/-! ### Packing keeps the order (R123) -/

theorem round10_mono {v w sh : Nat} (hsh : 1 ≤ sh) (h : v ≤ w) : round10 v sh ≤ round10 w sh := by
  have hkept : v / 2 ^ sh ≤ w / 2 ^ sh := Nat.div_le_div_right h
  have hrest : v / 2 ^ sh = w / 2 ^ sh → v % 2 ^ sh ≤ w % 2 ^ sh := fun heq => by
    have hv := Nat.div_add_mod v (2 ^ sh)
    have hw := Nat.div_add_mod w (2 ^ sh)
    rw [heq] at hv
    omega
  have hv := round10_cases v hsh
  have hw := round10_cases w hsh
  omega

theorem lowBits_pack {F : Format} (hF : IsWide F) (a : Nat) :
    lowBits Config.half (pack F a) = packLow Config.nan16Sig F (expField F a) (sigField F a) := by
  obtain ⟨-, he, hf⟩ := fields_pack hF a
  rw [lowBits, he, hf]
  exact Nat.div_add_mod' _ _

theorem unbiasedExp_le_of_lowBits_le {F : Format} {a b : Nat} (h : lowBits F a ≤ lowBits F b) :
    unbiasedExp F a ≤ unbiasedExp F b := by
  have hexp := expField_le_of_lowBits_le h
  rw [unbiasedExp, unbiasedExp]
  omega

section Order

variable {F : Format} (hF : IsWide F) {a b : Nat}

include hF

/-- The result lies between the powers of two that bound the operand. -/
theorem magnitude_pack_bounds (h₁ : -24 ≤ unbiasedExp F a) (h₂ : unbiasedExp F a ≤ 15) :
    (2 : ℚ) ^ unbiasedExp F a ≤ magnitude Config.half (pack F a) ∧
    magnitude Config.half (pack F a) ≤ (2 : ℚ) ^ (unbiasedExp F a + 1) := by
  obtain ⟨hlow, hup⟩ := packRound_bounds hF h₁
  have hpow : ∀ n : Nat, ∀ i : Int, (n : ℤ) + ((unbiasedExp F a + 14).toNat - 24) = i →
      ((2 ^ n : Nat) : ℚ) * ulp (unbiasedExp F a) = (2 : ℚ) ^ i := by
    intro n i h
    rw [ulp, Nat.cast_pow, Nat.cast_two, ← zpow_natCast, ← zpow_add₀ two_ne_zero, h]
  rw [magnitude_pack hF h₁ h₂, ← hpow (10 - (-14 - unbiasedExp F a).toNat) (unbiasedExp F a) (by omega),
    ← hpow (11 - (-14 - unbiasedExp F a).toNat) (unbiasedExp F a + 1) (by omega)]
  exact ⟨mul_le_mul_of_nonneg_right (by exact_mod_cast hlow) (ulp_pos _).le,
    mul_le_mul_of_nonneg_right (by exact_mod_cast hup) (ulp_pos _).le⟩

/-- In the range packing keeps the order of magnitudes: rounding does for one exponent, and a power of two stands
between two. -/
theorem magnitude_pack_mono (h : lowBits F a ≤ lowBits F b) (h₁ : -24 ≤ unbiasedExp F a)
    (h₂ : unbiasedExp F b ≤ 15) : magnitude Config.half (pack F a) ≤ magnitude Config.half (pack F b) := by
  have hexp := unbiasedExp_le_of_lowBits_le h
  obtain hlt | heq := hexp.lt_or_eq
  · calc magnitude Config.half (pack F a) ≤ (2 : ℚ) ^ (unbiasedExp F a + 1) :=
        (magnitude_pack_bounds hF h₁ (by omega)).2
      _ ≤ (2 : ℚ) ^ unbiasedExp F b := two_zpow_le_two_zpow hlt
      _ ≤ magnitude Config.half (pack F b) := (magnitude_pack_bounds hF (by omega) h₂).1
  · have hfield : expField F a = expField F b := by
      rw [unbiasedExp, unbiasedExp] at heq
      omega
    have hsig : sigField F a ≤ sigField F b := by
      rw [lowBits, lowBits, hfield] at h
      exact Nat.le_of_add_le_add_left h
    rw [magnitude_pack hF h₁ (by omega), magnitude_pack hF (by omega) h₂, packRound, packRound, heq]
    refine mul_le_mul_of_nonneg_right (Nat.cast_le.mpr ?_) (ulp_pos _).le
    exact round10_mono (one_le_packShift hF _) (Nat.add_le_add_left hsig _)

theorem lowBits_pack_mono (ha : classify F a ≠ .nan) (hb : classify F b ≠ .nan) (h : lowBits F a ≤ lowBits F b) :
    lowBits Config.half (pack F a) ≤ lowBits Config.half (pack F b) := by
  have hexp := unbiasedExp_le_of_lowBits_le h
  obtain htiny | h₁ := lt_or_ge (unbiasedExp F a) (-24)
  · rw [lowBits_pack hF a, packLow_of_tiny htiny]
    exact Nat.zero_le _
  · obtain hover | h₂ := lt_or_ge 15 (unbiasedExp F b)
    · rw [lowBits_pack hF, lowBits_pack hF b, packLow_of_over hover ((not_isNan_iff hF).mp hb)]
      exact packLow_le hF (sigField_lt F a) ((not_isNan_iff hF).mp ha)
    · exact magnitude_le_iff.mp (magnitude_pack_mono hF h h₁ h₂)

theorem orderKey_pack_mono (ha : classify F a ≠ .nan) (hb : classify F b ≠ .nan)
    (h : orderKey F a ≤ orderKey F b) : orderKey Config.half (pack F a) ≤ orderKey Config.half (pack F b) := by
  have hup := lowBits_pack_mono hF ha hb
  have hdown := lowBits_pack_mono hF hb ha
  unfold orderKey at h ⊢
  rw [signField_pack hF, signField_pack hF]
  by_cases hsa : signField F a = 0 <;> by_cases hsb : signField F b = 0 <;>
    simp only [hsa, hsb, if_true, if_false] at h ⊢ <;> omega

end Order

/-- Settles O52: values are ordered as keys, which packing keeps in order and unpacking does not change. -/
theorem packIsMonotone : Obligations.PackIsMonotone := by
  intro F hF
  have hmax := expFieldMax_of_isWide hF
  refine ⟨fun a _ b _ ha hb h => ?pack, fun h _ g _ hh hg hne hle => ?unpack⟩
  case pack =>
    rw [notAbove_val_iff (by omega) ha hb] at h
    rw [notAbove_val_iff (by decide) (classify_pack_ne_nan hF ha) (classify_pack_ne_nan hF hb)]
    exact orderKey_pack_mono hF ha hb h
  case unpack =>
    rw [val_unpack hF hh, val_unpack hF hg]
    refine ⟨hle, fun hge => hne ?_⟩
    rw [notAbove_val_iff (by decide) hh hg] at hle
    rw [notAbove_val_iff (by decide) hg hh] at hge
    exact orderKey_injective (F := Config.half) ‹_› ‹_› (le_antisymm hle hge)

/-! ### The two widths (R124) -/

section Widths

variable {F G : Format} {a b : Nat} (hF : IsWide F) (hG : IsWide G)

include hF hG

/-- The magnitude tells the unbiased exponent of an operand that is not below the range. -/
theorem unbiasedExp_eq_of_magnitude_eq (hm : magnitude F a = magnitude G b) (h₁ : -24 ≤ unbiasedExp F a) :
    unbiasedExp G b = unbiasedExp F a := by
  have hlow := two_zpow_le_magnitude (expField_ne_zero_of_unbiasedExp_ge hF (a := a) (by omega))
  have hup := magnitude_lt_two_zpow F a
  have hup' := magnitude_lt_two_zpow G b
  have hle := lt_of_two_zpow_lt (hlow.trans_lt (hm ▸ hup'))
  have hlow' := two_zpow_le_magnitude (expField_ne_zero_of_unbiasedExp_ge hG (a := b) (by omega))
  have hge := lt_of_two_zpow_lt ((hm ▸ hlow').trans_lt hup)
  omega

/-- Operands of one sign and one magnitude pack to one pattern, whatever their formats. -/
theorem pack_eq_of_magnitude_eq (ha : classify F a ≠ .nan) (hb : classify G b ≠ .nan)
    (hs : signField F a = signField G b) (hm : magnitude F a = magnitude G b) : pack F a = pack G b := by
  obtain htiny | h₁ := lt_or_ge (unbiasedExp F a) (-24)
  · have htiny' : unbiasedExp G b < -24 := by
      by_contra hge
      have heq := unbiasedExp_eq_of_magnitude_eq hG hF hm.symm (not_lt.mp hge)
      omega
    rw [pack_of_tiny htiny, pack_of_tiny htiny', hs]
  · have heq := unbiasedExp_eq_of_magnitude_eq hF hG hm h₁
    rw [pack_eq_packLow, pack_eq_packLow, hs]
    obtain hover | h₂ := lt_or_ge 15 (unbiasedExp F a)
    · rw [packLow_of_over hover ((not_isNan_iff hF).mp ha),
        packLow_of_over (heq ▸ hover : 15 < unbiasedExp G b) ((not_isNan_iff hG).mp hb)]
    · have hexact : packExact F a = packExact G b := by
        rw [magnitude_eq_packExact hF (by omega), magnitude_eq_packExact hG (by omega), heq] at hm
        exact mul_right_cancel₀ (ulp_pos _).ne' hm
      have hround : packRound F a = packRound G b := by
        have hna := packRound_isNearestEven hF a
        rw [hexact] at hna
        exact_mod_cast hna.unique (packRound_isNearestEven hG b)
      rw [packLow_eq_packRound hF h₁ h₂, packLow_eq_packRound hG (by omega) (by omega), heq, hround]

theorem pack_eq_of_val_eq (ha : classify F a ≠ .nan) (hb : classify G b ≠ .nan) (hv : val F a = val G b) :
    pack F a = pack G b := by
  by_cases hia : classify F a = .infinity <;> by_cases hib : classify G b = .infinity
  · rw [val_of_infinity hia, val_of_infinity hib, Value.infinity.injEq] at hv
    rw [pack_of_infinity hF hia, pack_of_infinity hG hib, hv]
  · rw [val_of_infinity hia, val_of_finite hib hb] at hv
    cases hv
  · rw [val_of_finite hia ha, val_of_infinity hib] at hv
    cases hv
  · rw [val_of_finite hia ha, val_of_finite hib hb, Value.number.injEq] at hv
    obtain ⟨hs, hq⟩ := hv
    refine pack_eq_of_magnitude_eq hF hG ha hb hs ?_
    rw [← abs_finiteValue, ← abs_finiteValue, hq]

end Widths

/-- Settles O53: packing depends on the value, for a NaN on its sign, and unpacking is exact in both widths. -/
theorem widthsAgree : Obligations.WidthsAgree := by
  have hs : IsWide Config.single := .inl rfl
  have hd : IsWide Config.double := .inr rfl
  refine ⟨fun a _ b _ ha hb hv => pack_eq_of_val_eq hs hd ha hb hv, fun a _ b _ ha hb hsign => ?_,
    fun h _ => val_unpack_double_eq_single h⟩
  rw [pack_of_nan hs ha, pack_of_nan hd hb, hsign]

end Sys2Proof.Machine
end
